-- ==== Sys2Proof/Word.lean ====
section
/-! DEFINITION. The byte, the only data and address width of the machine, and the 4-bit nibble
(spec/00_scope.md R3, R4, R7). -/

namespace Sys2Proof

/-- An unsigned 8-bit value: a register, a memory cell, an operand byte or an address (R3, R4).
Addition of two bytes is the spec's `+8`, addition modulo 256 (R32). -/
abbrev Byte := BitVec 8

/-- A 4-bit value: an opcode number, a flag mask or the flags together (R50, R55, R16). -/
abbrev Nibble := BitVec 4

end Sys2Proof
end

