-- ==== Sys2Proof/Config.lean ====
section
/-! DEFINITION. What the spec leaves as a parameter (spec/00_scope.md R6, spec/93_implementation_defined.md
section 2). `OPCODE_MAP` is the argument of the decoder and encoder in Sys2Proof/Decode.lean, with the
spec's default. No value of this hardware is undefined, so there is no free value. -/

namespace Sys2Proof

/-- `ADD_CARRY_INCLUDES_CIN`, default false: ADD's carry-out does not count the carry-in
(R6, R126, C4, D10). UNVERIFIED: the source says so and nobody has audited it. unsafe; log 2. -/
def Config.addCarryIncludesCin : Bool := false

/-- The number of memory cells (R3, R30). -/
abbrev Config.memorySize : Nat := 256

/-- The points of the ASSEMBLER the spec leaves open: each is an argument of the assembler, and nothing
is assumed of any (D13, D17, D18, D22, D23, N17, N19). safe; log 17. -/
structure AsmParams where
  /-- `LABEL_MARKER`, the character that begins a label (D13). -/
  labelMarker : Char
  /-- `COMMENT_CHAR`, the character that begins a comment (D13). -/
  commentChar : Char
  /-- Whether `PAD` is an assembler mnemonic (D17). -/
  padIsMnemonic : Bool
  /-- Whether a bare `J` is accepted, with the empty mask (D23). -/
  bareJIsMnemonic : Bool
  /-- Whether a label may stand as DATA's value (D22). -/
  labelAsData : Bool
  /-- Whether a register name must be written with a capital `R` (N17). -/
  registerCaseMatters : Bool
  /-- Whether label names that differ in the case of letters only are different names (N17). -/
  labelCaseMatters : Bool
  /-- Which identifiers may name a label: their characters and their length (N17). -/
  labelNameOk : List Char → Bool
  /-- The most characters a literal may have, if there is such a limit (N17). -/
  maxLiteralLength : Option Nat
  /-- What byte 255 of the output holds when a 2-byte instruction with this opcode byte starts there (D18). -/
  byteAtCut : Byte → Byte
  /-- What a reference to the label of this name is patched with when the label's value is no byte: it stands after
  256 emitted bytes (N19), or after the cut at the ceiling (R79). -/
  byteOutside : List Char → Byte

end Sys2Proof
end

