-- ==== Sys2Proof/Syntax.lean ====
section
/-! DEFINITION. The instructions: register names, the sixteen opcodes with their formats and lengths,
and `Instr`, one constructor per row of spec/opcode_table.json (spec/30_encoding.md R50 to R56). -/

namespace Sys2Proof

/-- The four general registers (spec/10_state.md R11). -/
inductive Reg where
  | r0 | r1 | r2 | r3
  deriving DecidableEq, Repr

/-- The sixteen opcodes, by mnemonic (spec/00_scope.md R5). Their numbers are the decoder's (R53). -/
inductive Opcode where
  | load | store | data | jmpr | jmp | jcond | clf | pad
  | add | shr | shl | not | and | or | xor | cmp
  deriving DecidableEq, Repr

/-- The six instruction formats (spec/30_encoding.md R52). -/
inductive Format where
  | rr | r | n | ri | a | ca
  deriving DecidableEq, Repr

/-- The format of each opcode, the last column of R52's table and the fourth of R53's. -/
def Opcode.format : Opcode → Format
  | .load => .rr
  | .store => .rr
  | .data => .ri
  | .jmpr => .r
  | .jmp => .a
  | .jcond => .ca
  | .clf => .n
  | .pad => .n
  | .add => .rr
  | .shr => .rr
  | .shl => .rr
  | .not => .rr
  | .and => .rr
  | .or => .rr
  | .xor => .rr
  | .cmp => .rr

/-- Whether a format has an operand byte (R52). -/
def Format.hasOperandByte : Format → Bool
  | .rr => false
  | .r => false
  | .n => false
  | .ri => true
  | .a => true
  | .ca => true

/-- The length in bytes; the opcode alone decides it (R51). -/
def Opcode.length (o : Opcode) : Nat :=
  if o.format.hasOperandByte then 2 else 1

/-- An instruction with its operands. `ra` and `rb` are the registers of bits 3:2 and 1:0 of the opcode
byte (R54), `mask` the flag mask of bits 3:0 (R55), `value` and `addr` the operand byte (R56). -/
inductive Instr where
  | load (ra rb : Reg)
  | store (ra rb : Reg)
  | data (rb : Reg) (value : Byte)
  | jmpr (rb : Reg)
  | jmp (addr : Byte)
  | jcond (mask : Nibble) (addr : Byte)
  | clf
  | pad
  | add (ra rb : Reg)
  | shr (ra rb : Reg)
  | shl (ra rb : Reg)
  | not (ra rb : Reg)
  | and (ra rb : Reg)
  | or (ra rb : Reg)
  | xor (ra rb : Reg)
  | cmp (ra rb : Reg)
  deriving DecidableEq, Repr

/-- The opcode of an instruction. -/
def Instr.opcode : Instr → Opcode
  | .load _ _ => .load
  | .store _ _ => .store
  | .data _ _ => .data
  | .jmpr _ => .jmpr
  | .jmp _ => .jmp
  | .jcond _ _ => .jcond
  | .clf => .clf
  | .pad => .pad
  | .add _ _ => .add
  | .shr _ _ => .shr
  | .shl _ _ => .shl
  | .not _ _ => .not
  | .and _ _ => .and
  | .or _ _ => .or
  | .xor _ _ => .xor
  | .cmp _ _ => .cmp

/-- The length of an instruction in bytes (R51). -/
def Instr.length (i : Instr) : Nat := i.opcode.length

end Sys2Proof
end

