-- ==== Sys2Proof/WellFormed.lean ====
section
/-! DEFINITION. The checks on instructions, opcode bytes and program images. -/

namespace Sys2Proof

/-- Every term of `Instr` is a legal instruction: all four values of each register field, all sixteen
masks and all operand bytes are legal (spec/30_encoding.md R54, R55, R56, R58), and the types of
`Instr`'s fields hold nothing else, so this check has no ill-formed term. -/
def Instr.wf : Instr → Bool
  | .load _ _ => true
  | .store _ _ => true
  | .data _ _ => true
  | .jmpr _ => true
  | .jmp _ => true
  | .jcond _ _ => true
  | .clf => true
  | .pad => true
  | .add _ _ => true
  | .shr _ _ => true
  | .shl _ _ => true
  | .not _ _ => true
  | .and _ _ => true
  | .or _ _ => true
  | .xor _ _ => true
  | .cmp _ _ => true

/-- The don't-care bits of a format's opcode byte, the `x` of R52's table (R57). -/
def Format.dontCare : Format → Byte
  | .rr => 0b00000000
  | .r => 0b00001100
  | .n => 0b00001111
  | .ri => 0b00001100
  | .a => 0b00001111
  | .ca => 0b00000000

/-- An opcode byte is canonical for its opcode when its don't-care bits are zero, as the encoder emits
them (D2, R82). A byte that is not canonical is legal all the same (R57, R58). -/
def Opcode.canonical (o : Opcode) (b : Byte) : Bool :=
  b &&& o.format.dontCare == 0

/-- A program image is a sequence of at most 256 bytes (R60). -/
def imageWf (image : List Byte) : Bool :=
  image.length ≤ Config.memorySize

end Sys2Proof
end

