-- ==== Sys2Proof/Decode.lean ====
section
/-! DEFINITION. The decoder, total on any bytes, and after it the encoder (spec/30_encoding.md R50 to R61).
Both take the opcode map as an argument, as R6 and R53 allow, and are then fixed at the spec's default. -/

namespace Sys2Proof

/-! ### The opcode map (R53) -/

/-- R53's table: the opcode whose number is the place in the list. Only DATA = 2 and ADD = 8 are the
source's, the other fourteen are decision D1. DESIGN CHOICE of the spec, unsafe; log 1. -/
def opcodeTable : Vector Opcode 16 :=
  #v[.load, .store, .data, .jmpr, .jmp, .jcond, .clf, .pad,
     .add, .shr, .shl, .not, .and, .or, .xor, .cmp]

/-- `OPCODE_MAP`: the opcode a high nibble selects (R50, R53). -/
def opcodeMap (n : Nibble) : Opcode :=
  opcodeTable[n.toNat]'n.isLt

/-- The number of an opcode, R53's table read the other way. -/
def opcodeNumber : Opcode → Nibble
  | .load => 0x0
  | .store => 0x1
  | .data => 0x2
  | .jmpr => 0x3
  | .jmp => 0x4
  | .jcond => 0x5
  | .clf => 0x6
  | .pad => 0x7
  | .add => 0x8
  | .shr => 0x9
  | .shl => 0xA
  | .not => 0xB
  | .and => 0xC
  | .or => 0xD
  | .xor => 0xE
  | .cmp => 0xF

/-! ### Fields of the opcode byte (R50, R54, R55) -/

/-- Bits 7 to 4, the opcode (R50). -/
def opcodeField (b : Byte) : Nibble := b.extractLsb' 4 4

/-- Bits 3 to 0, JCOND's mask (R55). -/
def maskField (b : Byte) : Nibble := b.extractLsb' 0 4

/-- The register of a 2-bit index, 0..3 for R0..R3 (R54). -/
def regOfBits (n : BitVec 2) : Reg :=
  #v[Reg.r0, .r1, .r2, .r3][n.toNat]'n.isLt

/-- The 2-bit index of a register (R54). -/
def regBits : Reg → BitVec 2
  | .r0 => 0
  | .r1 => 1
  | .r2 => 2
  | .r3 => 3

/-- `RA`, the register of bits 3 to 2 (R54). -/
def raField (b : Byte) : Reg := regOfBits (b.extractLsb' 2 2)

/-- `RB`, the register of bits 1 to 0 (R54). -/
def rbField (b : Byte) : Reg := regOfBits (b.extractLsb' 0 2)

/-! ### Decoding -/

/-- The instruction of an opcode byte `b` and the byte `x` that follows it, for an opcode map `m`.
Don't-care bits are ignored (R57), and every pair of bytes decodes (R58, R61). -/
def decodeBytesWith (m : Nibble → Opcode) (b x : Byte) : Instr :=
  match m (opcodeField b) with
  | .load => .load (raField b) (rbField b)
  | .store => .store (raField b) (rbField b)
  | .data => .data (rbField b) x
  | .jmpr => .jmpr (rbField b)
  | .jmp => .jmp x
  | .jcond => .jcond (maskField b) x
  | .clf => .clf
  | .pad => .pad
  | .add => .add (raField b) (rbField b)
  | .shr => .shr (raField b) (rbField b)
  | .shl => .shl (raField b) (rbField b)
  | .not => .not (raField b) (rbField b)
  | .and => .and (raField b) (rbField b)
  | .or => .or (raField b) (rbField b)
  | .xor => .xor (raField b) (rbField b)
  | .cmp => .cmp (raField b) (rbField b)

/-- `decodeBytesWith` at the spec's opcode map. -/
def decodeBytes (b x : Byte) : Instr := decodeBytesWith opcodeMap b x

/-- Why a list of bytes holds no instruction. The machine never meets either: its memory wraps (R43), so
every address has a byte after it. They arise for byte lists only. safe; log 12. -/
inductive DecodeError where
  /-- The list is empty. -/
  | noOpcodeByte
  /-- The opcode is that of a 2-byte instruction and the list ends after it. -/
  | noOperandByte
  deriving DecidableEq, Repr

/-- What the front of a list of bytes holds: an instruction and the bytes after it, or none, and why. -/
inductive Decoded where
  | instr (i : Instr) (rest : List Byte)
  | rejected (why : DecodeError)
  deriving DecidableEq, Repr

/-- Reads one instruction off the front of a list of bytes, for an opcode map `m`
(R51: the opcode alone decides the length). -/
def decodeWith (m : Nibble → Opcode) : List Byte → Decoded
  | [] => .rejected .noOpcodeByte
  | b :: rest =>
    if (m (opcodeField b)).format.hasOperandByte then
      match rest with
      | [] => .rejected .noOperandByte
      | x :: rest' => .instr (decodeBytesWith m b x) rest'
    else .instr (decodeBytesWith m b 0) rest

/-- `decodeWith` at the spec's opcode map. -/
def decode (bytes : List Byte) : Decoded := decodeWith opcodeMap bytes

/-! ### Encoding -/

/-- A low nibble put together from bits 3 to 2 and bits 1 to 0. -/
def nibbleOf (hi lo : BitVec 2) : Nibble := hi ++ lo

/-- An opcode byte put together from its nibbles (R50). -/
def byteOf (hi lo : Nibble) : Byte := hi ++ lo

/-- The low nibble of an instruction's opcode byte, with zeros in the don't-care bits (R52, R54, R55; D2). -/
def lowNibble : Instr → Nibble
  | .load ra rb => nibbleOf (regBits ra) (regBits rb)
  | .store ra rb => nibbleOf (regBits ra) (regBits rb)
  | .data rb _ => nibbleOf 0 (regBits rb)
  | .jmpr rb => nibbleOf 0 (regBits rb)
  | .jmp _ => 0
  | .jcond mask _ => mask
  | .clf => 0
  | .pad => 0
  | .add ra rb => nibbleOf (regBits ra) (regBits rb)
  | .shr ra rb => nibbleOf (regBits ra) (regBits rb)
  | .shl ra rb => nibbleOf (regBits ra) (regBits rb)
  | .not ra rb => nibbleOf (regBits ra) (regBits rb)
  | .and ra rb => nibbleOf (regBits ra) (regBits rb)
  | .or ra rb => nibbleOf (regBits ra) (regBits rb)
  | .xor ra rb => nibbleOf (regBits ra) (regBits rb)
  | .cmp ra rb => nibbleOf (regBits ra) (regBits rb)

/-- The operand byte of an instruction that has one (R51, R56). -/
def operandByte? : Instr → Option Byte
  | .load _ _ => none
  | .store _ _ => none
  | .data _ value => some value
  | .jmpr _ => none
  | .jmp addr => some addr
  | .jcond _ addr => some addr
  | .clf => none
  | .pad => none
  | .add _ _ => none
  | .shr _ _ => none
  | .shl _ _ => none
  | .not _ _ => none
  | .and _ _ => none
  | .or _ _ => none
  | .xor _ _ => none
  | .cmp _ _ => none

/-- The opcode byte of an instruction, for opcode numbers `num`: opcode in the high nibble (R50). -/
def opcodeByteWith (num : Opcode → Nibble) (i : Instr) : Byte :=
  byteOf (num i.opcode) (lowNibble i)

/-- The bytes of an instruction in memory order, the opcode byte first (R34, R51, R52). -/
def encodeWith (num : Opcode → Nibble) (i : Instr) : List Byte :=
  opcodeByteWith num i :: (operandByte? i).toList

/-- `encodeWith` at the spec's opcode numbers. -/
def encode (i : Instr) : List Byte := encodeWith opcodeNumber i

/-! ### The table's words -/

/-- The bytes of an instruction word numbered as spec/opcode_table.json numbers it: the first byte is
bits 7 to 0, the second bits 15 to 8, and every bit from `nbits` up is zero. -/
def tableWordBytes (nbits w : Nat) : Byte × Byte :=
  (BitVec.ofNat 8 (w % 2 ^ nbits), BitVec.ofNat 8 (w % 2 ^ nbits / 256))

/-- The instruction the decoder reads from a word of the table. -/
def decodeTableWord (nbits w : Nat) : Option Instr :=
  match decode [(tableWordBytes nbits w).1, (tableWordBytes nbits w).2] with
  | .instr i _ => some i
  | .rejected _ => none

end Sys2Proof
end

