-- ==== Sys2Proof/Machine/State.lean ====
section
/-! DEFINITION. The state, exactly the twelve items of spec/10_state.md R10 (R18: no other), its reset
value (R22), and the reasons a step can stop. -/

namespace Sys2Proof.Machine

/-- The 256 cells of spec/20_memory.md R30, as (address, byte) pairs in canonical form: addresses strictly
rising and below 256, and no pair whose byte is `Memory.blank` (see `Memory.wf` in Machine/Memory.lean). -/
abbrev Memory := List Host.Cell

/-- The architectural state (R10). The flags are four separate bits (R15, R16, D3; log 7). -/
structure State where
  /-- General register R0 (R11). -/
  r0 : Byte
  /-- General register R1 (R11). -/
  r1 : Byte
  /-- General register R2 (R11). -/
  r2 : Byte
  /-- General register R3 (R11). -/
  r3 : Byte
  /-- The program counter (R12). -/
  iar : Byte
  /-- The memory address register, the address of the CPU's latest access (R13). -/
  mar : Byte
  /-- The instruction register, the opcode byte of the latest step (R14). -/
  ir : Byte
  /-- The carry flag (R15). -/
  cf : Bool
  /-- The A-greater flag (R15). -/
  af : Bool
  /-- The equal flag (R15). -/
  ef : Bool
  /-- The zero flag (R15). -/
  zf : Bool
  /-- The memory (R30). -/
  mem : Memory
  deriving DecidableEq, Repr

/-- The state after reset: every item zero (R22, spec/70_reset_and_hazards.md R180). That this covers
memory, and that it is the power-on state, is the spec's decision D4. DESIGN CHOICE, unsafe; log 4. -/
def State.reset : State where
  r0 := 0
  r1 := 0
  r2 := 0
  r3 := 0
  iar := 0
  mar := 0
  ir := 0
  cf := false
  af := false
  ef := false
  zf := false
  mem := []

/-- The reasons a step can fault: there is none. The machine raises no exception and `step` is total
(spec/40_step_cycle.md R93, spec/60_exceptions.md R160). unsafe if the hardware can stop; log 11. -/
inductive Fault where
  deriving DecidableEq, Repr

/-- The reasons a step can be refused. -/
inductive Refusal where
  /-- `exec` answers it for an instruction of the table that has no meaning yet, named by its mnemonic;
  every instruction has one, so nothing raises it. safe: the model stops where the hardware goes on. -/
  | notModelled (mnemonic : String)
  deriving DecidableEq, Repr

/-- The outcome of an instruction or a step. -/
abbrev Result := Host.Outcome State Fault Refusal

end Sys2Proof.Machine
end

