-- ==== Sys2Proof/Machine/Memory.lean ====
section
/-! DEFINITION. The memory as data: its canonical form, the read and the write of one cell
(spec/20_memory.md R30, R31). -/

namespace Sys2Proof.Machine

/-- What a cell that is not listed holds: 0x00, the content of every cell after reset (R22, D4).
DESIGN CHOICE of the spec, unsafe; log 4. -/
def Memory.blank : Byte := 0

/-- The canonical form of the cells from address `low` up. -/
def Memory.wfFrom : Nat → Memory → Bool
  | _, [] => true
  | low, (k, v) :: rest => low ≤ k && k < Config.memorySize && v != blank && wfFrom (k + 1) rest

/-- The canonical form: addresses strictly rising and below 256, no cell listed that holds `blank`. -/
def Memory.wf (m : Memory) : Bool := Memory.wfFrom 0 m

/-- The byte held at address `a`. -/
def Memory.lookup : Memory → Nat → Byte
  | [], _ => blank
  | (k, v) :: rest, a => if k = a then v else lookup rest a

/-- Lists a cell before the cells of higher addresses, unless it holds `blank`. -/
def Memory.cons (a : Nat) (v : Byte) (rest : Memory) : Memory :=
  if v = blank then rest else (a, v) :: rest

/-- Replaces the byte held at address `a` by `v`, keeping the canonical form. -/
def Memory.put : Memory → Nat → Byte → Memory
  | [], a, v => Memory.cons a v []
  | (k, w) :: rest, a, v =>
    if a < k then Memory.cons a v ((k, w) :: rest)
    else if a = k then Memory.cons a v rest
    else (k, w) :: put rest a v

/-- `MemRead(addr, 1)` (R31). -/
def Memory.read (m : Memory) (addr : Byte) : Byte := Memory.lookup m addr.toNat

/-- `MemWrite(addr, 1, v)` (R31). -/
def Memory.write (m : Memory) (addr v : Byte) : Memory := Memory.put m addr.toNat v

end Sys2Proof.Machine
end

