-- ==== Sys2Proof/Machine/Ops.lean ====
section
/-! DEFINITION. The named operations over registers, flags and memory, and the fetch that opens every step
(spec/40_step_cycle.md R91). Taking an exception and returning from one do not exist on this machine
(spec/60_exceptions.md R160, R163, R164), so no operation here does either. -/

namespace Sys2Proof.Machine

/-! ### Registers -/

/-- `R[i]`, the read of a general register (spec/10_state.md R11). -/
def State.reg (s : State) : Reg → Byte
  | .r0 => s.r0
  | .r1 => s.r1
  | .r2 => s.r2
  | .r3 => s.r3

/-- `R[i] <- v` (R11): no register is hard-wired. -/
def State.setReg (s : State) (r : Reg) (v : Byte) : State :=
  match r with
  | .r0 => { s with r0 := v }
  | .r1 => { s with r1 := v }
  | .r2 => { s with r2 := v }
  | .r3 => { s with r3 := v }

/-- `IAR <- v` (R12). -/
def State.setIar (s : State) (v : Byte) : State := { s with iar := v }

/-- `MAR <- v` (R13). -/
def State.setMar (s : State) (v : Byte) : State := { s with mar := v }

/-- `IR <- v` (R14). -/
def State.setIr (s : State) (v : Byte) : State := { s with ir := v }

/-! ### Flags -/

/-- `CF <- v` (R15). -/
def State.setCf (s : State) (v : Bool) : State := { s with cf := v }

/-- `AF <- v` (R15). -/
def State.setAf (s : State) (v : Bool) : State := { s with af := v }

/-- `EF <- v` (R15). -/
def State.setEf (s : State) (v : Bool) : State := { s with ef := v }

/-- `ZF <- v` (R15). -/
def State.setZf (s : State) (v : Bool) : State := { s with zf := v }

/-! ### Memory -/

/-- `MemRead(addr, 1)` (spec/20_memory.md R31). -/
def State.memRead (s : State) (addr : Byte) : Byte := Memory.read s.mem addr

/-- `MemWrite(addr, 1, v)` (R31). -/
def State.memWrite (s : State) (addr v : Byte) : State := { s with mem := Memory.write s.mem addr v }

/-! ### Fetch and decode -/

/-- The byte at `IAR`, the opcode byte of the next instruction (R12). -/
def State.nextOpcodeByte (s : State) : Byte := s.memRead s.iar

/-- The byte after it, modulo 256: the operand byte, if the next instruction has one (R34, R43, R51). -/
def State.nextOperandByte (s : State) : Byte := s.memRead (s.iar + 1)

/-- The instruction the next step executes (R59, R92). It takes in the operand byte, which the spec's
pseudocode reads through MAR inside the instruction: no write comes between the two, and a read has no
side effect (R31, R33). DEDUCED, safe; log 9. -/
def State.nextInstr (s : State) : Instr := decodeBytes s.nextOpcodeByte s.nextOperandByte

/-- The three actions that open every step: `MAR <- IAR`, `IR <- MemRead(MAR, 1)`, `IAR <- IAR +8 1` (R91). -/
def State.fetch (s : State) : State :=
  let s1 := s.setMar s.iar
  let s2 := s1.setIr (s1.memRead s1.mar)
  s2.setIar (s2.iar + 1)

end Sys2Proof.Machine
end

