-- ==== Sys2Proof/Machine/Flags.lean ====
section
/-! DEFINITION. Every flag computation of the spec (spec/10_state.md R15, R16, spec/44_alu.md R126 to R136,
spec/42_jumps.md R112). A flag used as a number is 0 or 1. -/

namespace Sys2Proof.Machine

/-- `ZF` after an ALU result: 1 if the 8-bit result is 0 (R136). -/
def zeroFlag (t : Byte) : Bool := t == 0

/-- ADD's carry-out, with the switch `ADD_CARRY_INCLUDES_CIN` as an argument (R126, D10; log 2). CF is
assigned the predicate, so it is cleared when the sum does not exceed 255 (D9). DEDUCED, unsafe; log 3. -/
def addCarryOut (includesCin : Bool) (a b : Byte) (c : Bool) : Bool :=
  if includesCin then decide (a.toNat + b.toNat + c.toNat > 255)
  else decide (a.toNat + b.toNat > 255)

/-- SHR's carry-out, the bit shifted out (R127). -/
def shrCarryOut (a : Byte) : Bool := a.getLsbD 0

/-- SHL's carry-out: bit 7 of `a`, 1 exactly when `(a << 1) > 255` (R128, D9; log 3). -/
def shlCarryOut (a : Byte) : Bool := a.getLsbD 7

/-- `AF` after CMP: `a > b`, unsigned (R133). -/
def greaterFlag (a b : Byte) : Bool := decide (a.toNat > b.toNat)

/-- `EF` after CMP: `a == b` (R133). -/
def equalFlag (a b : Byte) : Bool := a == b

/-- `FL`, the four flags as `CF:AF:EF:ZF` (R16). -/
def State.fl (s : State) : Nibble :=
  BitVec.ofNat 4 (s.cf.toNat * 8 + s.af.toNat * 4 + s.ef.toNat * 2 + s.zf.toNat)

/-- JCOND's condition: some flag the mask selects is set (R112). -/
def jumpTaken (mask fl : Nibble) : Bool := mask &&& fl != 0

/-- All four flags 0 (R120). -/
def State.clearFlags (s : State) : State :=
  (((s.setCf false).setAf false).setEf false).setZf false

end Sys2Proof.Machine
end

