-- ==== Sys2Proof/Machine/Operands.lean ====
section
/-! DEFINITION. The operand forms: the two addressing modes of spec/41_load_store_data.md R103, the
bookkeeping of an operand byte (R102, R111, R112), and the write of an ALU result (spec/44_alu.md R125, R136). -/

namespace Sys2Proof.Machine

/-- The effective address of the register indirect mode: the value of `RA` as it stands (R103, R32). -/
def State.effectiveAddress (s : State) (ra : Reg) : Byte := s.reg ra

/-- `MAR <- addr; MemRead(MAR, 1)`: the byte read, and the state with `MAR` written (R31, R100). -/
def State.readVia (s : State) (addr : Byte) : Byte × State :=
  let s' := s.setMar addr
  (s'.memRead s'.mar, s')

/-- `MAR <- addr; MemWrite(MAR, 1, v)` (R31, R101). -/
def State.writeVia (s : State) (addr v : Byte) : State :=
  let s' := s.setMar addr
  s'.memWrite s'.mar v

/-- `MAR <- IAR`: MAR at the operand byte's address, IAR not advanced (R111). -/
def State.pointMarAtOperand (s : State) : State := s.setMar s.iar

/-- `MAR <- IAR; IAR <- IAR +8 1`: MAR at the operand byte's address, IAR past it (R102, R112). -/
def State.passOperand (s : State) : State :=
  let s' := s.pointMarAtOperand
  s'.setIar (s'.iar + 1)

/-- `R[rb] <- t; ZF <- (t == 0)`, what ADD, SHR, SHL, NOT, AND, OR and XOR do with a result (R125, R136). -/
def State.writeResult (s : State) (rb : Reg) (t : Byte) : State :=
  (s.setReg rb t).setZf (zeroFlag t)

end Sys2Proof.Machine
end

