-- ==== Sys2Proof/Machine/Alu.lean ====
section
/-! DEFINITION. ADD, SHR, SHL, NOT, AND, OR, XOR and CMP (spec/44_alu.md), after the common fetch of R91.
Operand values are read before anything is written (R125), and results are computed on unbounded
integers and cut to 8 bits where the spec writes `[7:0]` (R134). -/

namespace Sys2Proof.Machine

/-- `(a + b + c)[7:0]` (R126). -/
def addResult (a b : Byte) (c : Bool) : Byte :=
  BitVec.ofNat 8 (a.toNat + b.toNat + c.toNat)

/-- `(a >> 1) | (c << 7)`: the old carry enters at bit 7 (R127). -/
def shrResult (a : Byte) (c : Bool) : Byte :=
  BitVec.ofNat 8 (a.toNat >>> 1 ||| c.toNat <<< 7)

/-- `((a << 1) | c)[7:0]`: the old carry enters at bit 0, and the result is cut to the register's
width (R128, N28). DEDUCED, unsafe; log 14. -/
def shlResult (a : Byte) (c : Bool) : Byte :=
  BitVec.ofNat 8 (a.toNat <<< 1 ||| c.toNat)

/-- ADD (R126). -/
def execAdd (ra rb : Reg) (s : State) : Result :=
  let a := s.reg ra
  let b := s.reg rb
  let c := s.cf
  .next ((s.setCf (addCarryOut Config.addCarryIncludesCin a b c)).writeResult rb (addResult a b c))

/-- SHR (R127). -/
def execShr (ra rb : Reg) (s : State) : Result :=
  let a := s.reg ra
  let c := s.cf
  .next ((s.setCf (shrCarryOut a)).writeResult rb (shrResult a c))

/-- SHL (R128). -/
def execShl (ra rb : Reg) (s : State) : Result :=
  let a := s.reg ra
  let c := s.cf
  .next ((s.setCf (shlCarryOut a)).writeResult rb (shlResult a c))

/-- NOT (R129): the one's complement of `RA`. -/
def execNot (ra rb : Reg) (s : State) : Result :=
  .next (s.writeResult rb (~~~ s.reg ra))

/-- AND (R130). -/
def execAnd (ra rb : Reg) (s : State) : Result :=
  .next (s.writeResult rb (s.reg rb &&& s.reg ra))

/-- OR (R131). -/
def execOr (ra rb : Reg) (s : State) : Result :=
  .next (s.writeResult rb (s.reg rb ||| s.reg ra))

/-- XOR (R132). -/
def execXor (ra rb : Reg) (s : State) : Result :=
  .next (s.writeResult rb (s.reg rb ^^^ s.reg ra))

/-- CMP (R133): no register is written, CF and ZF are left alone. -/
def execCmp (ra rb : Reg) (s : State) : Result :=
  let a := s.reg ra
  let b := s.reg rb
  .next ((s.setAf (greaterFlag a b)).setEf (equalFlag a b))

end Sys2Proof.Machine
end

