-- ==== Sys2Proof/Machine/Clf.lean ====
section
/-! DEFINITION. CLF (spec/43_clf.md), after the common fetch of R91. -/

namespace Sys2Proof.Machine

/-- CLF (R120): all four flags to 0, whatever they were. -/
def execClf (s : State) : Result :=
  .next s.clearFlags

end Sys2Proof.Machine
end

