-- ==== Sys2Proof/Machine/Jumps.lean ====
section
/-! DEFINITION. JMPR, JMP and JCOND (spec/42_jumps.md), after the common fetch of R91. A jump writes IAR,
and MAR where it has an operand byte, and nothing else (R113). -/

namespace Sys2Proof.Machine

/-- JMPR (R110). -/
def execJmpr (rb : Reg) (s : State) : Result :=
  .next (s.setIar (s.reg rb))

/-- JMP (R111): IAR is not separately advanced past the operand byte. -/
def execJmp (addr : Byte) (s : State) : Result :=
  .next (s.pointMarAtOperand.setIar addr)

/-- JCOND (R112): the fall-through address is past the operand byte; the condition is any-of. -/
def execJcond (mask : Nibble) (addr : Byte) (s : State) : Result :=
  let s' := s.passOperand
  if jumpTaken mask s'.fl then .next (s'.setIar addr) else .next s'

end Sys2Proof.Machine
end

