-- ==== Sys2Proof/Machine/LoadStore.lean ====
section
/-! DEFINITION. LOAD, STORE and DATA (spec/41_load_store_data.md). Each meaning is what happens after the
common fetch of R91: IAR already holds the address after the opcode byte. -/

namespace Sys2Proof.Machine

/-- LOAD (R100): the address is taken from `RA` before `RB` is written, also when they are one register. -/
def execLoad (ra rb : Reg) (s : State) : Result :=
  let (v, s') := s.readVia (s.effectiveAddress ra)
  .next (s'.setReg rb v)

/-- STORE (R101). -/
def execStore (ra rb : Reg) (s : State) : Result :=
  .next (s.writeVia (s.effectiveAddress ra) (s.reg rb))

/-- DATA (R102); `value` is the operand byte, unchanged (R56). -/
def execData (rb : Reg) (value : Byte) (s : State) : Result :=
  .next (s.passOperand.setReg rb value)

end Sys2Proof.Machine
end

