-- ==== Sys2Proof/Machine/Pad.lean ====
section
/-! DEFINITION. PAD (spec/45_pad.md), after the common fetch of R91. -/

namespace Sys2Proof.Machine

/-- PAD (R150): nothing beyond the fetch. -/
def execPad (s : State) : Result :=
  .next s

end Sys2Proof.Machine
end

