-- ==== Sys2Proof/Machine/Dispatch.lean ====
section
/-! DEFINITION. The dispatch of one instruction to its meaning (spec/40_step_cycle.md R92). -/

namespace Sys2Proof.Machine

/-- The effect of instruction `i` on the state `s` that the fetch of R91 left. -/
def exec (i : Instr) (s : State) : Host.Outcome State Fault Refusal :=
  match i with
  -- 41_load_store_data.md
  | .load ra rb => Sys2Proof.Machine.execLoad ra rb s
  | .store ra rb => Sys2Proof.Machine.execStore ra rb s
  | .data rb value => Sys2Proof.Machine.execData rb value s
  -- 42_jumps.md
  | .jmpr rb => Sys2Proof.Machine.execJmpr rb s
  | .jmp addr => Sys2Proof.Machine.execJmp addr s
  | .jcond mask addr => Sys2Proof.Machine.execJcond mask addr s
  -- 43_clf.md, 45_pad.md
  | .clf => Sys2Proof.Machine.execClf s
  | .pad => Sys2Proof.Machine.execPad s
  -- 44_alu.md
  | .add ra rb => Sys2Proof.Machine.execAdd ra rb s
  | .shr ra rb => Sys2Proof.Machine.execShr ra rb s
  | .shl ra rb => Sys2Proof.Machine.execShl ra rb s
  | .not ra rb => Sys2Proof.Machine.execNot ra rb s
  | .and ra rb => Sys2Proof.Machine.execAnd ra rb s
  | .or ra rb => Sys2Proof.Machine.execOr ra rb s
  | .xor ra rb => Sys2Proof.Machine.execXor ra rb s
  | .cmp ra rb => Sys2Proof.Machine.execCmp ra rb s

end Sys2Proof.Machine
end

