-- ==== Sys2Proof/Machine/Step.lean ====
section
/-! DEFINITION. One step of the machine, and the placing of one instruction where the next step fetches it. -/

namespace Sys2Proof.Machine

/-- One fetch-decode-execute cycle: the fetch of R91, then the fetched instruction's meaning (R90, R92). -/
def step (s : State) : Host.Outcome State Fault Refusal :=
  exec s.nextInstr s.fetch

/-- `s` with the instruction whose table word is `w` at IAR and the byte after it, so that the next step
runs it; `nbits` is as in `decodeTableWord`. On this machine a program is data that the host's `load`
places (R182), and this stands for that; log 10. -/
def State.withFetchWord (s : State) (nbits w : Nat) : State :=
  let bytes := tableWordBytes nbits w
  (s.memWrite s.iar bytes.1).memWrite (s.iar + 1) bytes.2

end Sys2Proof.Machine
end

