-- ==== Sys2Proof/Machine/Assembler.lean ====
section
/-! DEFINITION. The assembler of spec/30_encoding.md R70 to R82: source lines to a program image. It is
software and no part of the CPU (R2); the machine executes any image without checking it (R58). What the
spec leaves open is an argument, `AsmParams` (log 17); the rest of what it does not settle is log 18 to 23. -/

namespace Sys2Proof.Asm

/-- The characters of a line, of a word and of a label's name. -/
abbrev Text := List Char

/-- A word of a source line, with its line number and the column of its first character, from 0. -/
structure Word where
  line : Nat
  col : Nat
  text : Text
  deriving DecidableEq, Repr

/-- The fatal conditions (R80). Each has its line, and the lexical ones a caret position too, which is the column of the
word's first character, from 0. safe: they end the compile and never reach the CPU (R166). DESIGN CHOICE for where
the caret stands; log 20. -/
inductive AsmError where
  /-- A malformed character in a word (R80, lexical). -/
  | malformedWord (line caret : Nat) (text : Text)
  /-- A literal longer than the lexer takes (R80, lexical; the limit is `AsmParams.maxLiteralLength`). -/
  | literalTooLong (line caret : Nat) (text : Text)
  /-- A literal without a digit (R80, lexical). -/
  | literalTooShort (line caret : Nat) (text : Text)
  /-- Hex digits without the `0x` prefix (R73, R80, lexical). -/
  | hexWithoutPrefix (line caret : Nat) (text : Text)
  /-- A missing or unexpected word where an instruction, register, label or literal was required (R80). -/
  | syntactic (line : Nat) (text : Text)
  /-- An unknown mnemonic (R80). -/
  | unknownInstruction (line : Nat) (text : Text)
  /-- A register that is not `R0` to `R3` (R72). -/
  | badRegister (line : Nat) (text : Text)
  /-- A literal above 255 (R73). -/
  | badLiteral (line : Nat) (text : Text)
  /-- A letter of a conditional jump that is not `C`, `A`, `E` or `Z` (R74). -/
  | invalidInstruction (line : Nat) (text : Text)
  /-- A label defined twice, with both lines (R75). -/
  | duplicateLabel (line firstLine : Nat) (name : Text)
  /-- A reference to a label that has no definition, with the reference's line (R77's record has no other). R80 says that
  both involved lines are cross-referenced and names no second one. DESIGN CHOICE, unsafe; log 23. -/
  | undefinedLabel (line : Nat) (name : Text)
  deriving DecidableEq, Repr

/-- The advisory conditions (R78, R79, R80): the compile succeeds. -/
inductive AsmWarning where
  | unusedLabel (line : Nat) (name : Text)
  | truncated (line : Nat)
  deriving DecidableEq, Repr

/-- The classes of fatal errors (the table of R80; its fourth class is `AsmWarning`). -/
inductive ErrorClass where
  | lexical
  | syntactic
  | semantic
  deriving DecidableEq, Repr

/-- The class of an error (the table of R80). -/
def AsmError.errorClass : AsmError → ErrorClass
  | .malformedWord _ _ _ => .lexical
  | .literalTooLong _ _ _ => .lexical
  | .literalTooShort _ _ _ => .lexical
  | .hexWithoutPrefix _ _ _ => .lexical
  | .syntactic _ _ => .syntactic
  | .unknownInstruction _ _ => .semantic
  | .badRegister _ _ => .semantic
  | .badLiteral _ _ => .semantic
  | .invalidInstruction _ _ => .semantic
  | .duplicateLabel _ _ _ => .semantic
  | .undefinedLabel _ _ => .semantic

/-- One statement. A label reference stands beside an instruction whose operand byte is a placeholder (R76, R77). -/
inductive Statement where
  | labelDef (name : Text)
  | code (i : Instr) (ref : Option Text)
  deriving DecidableEq, Repr

/-! ### Words of a line (R70) -/

/-- The characters between two words (R70). -/
def isSeparator (c : Char) : Bool := c == ' ' || c == ','

/-- The word collected so far, last character first, that ends before column `col`, as a list of at most one word. -/
def flush (line col : Nat) (cur : Text) : List Word :=
  if cur.isEmpty then [] else [⟨line, col - cur.length, cur.reverse⟩]

/-- Splits the characters from column `col` on at separators; `cur` is the word being collected. -/
def splitWords (line : Nat) : Nat → Text → Text → List Word
  | col, [], cur => flush line col cur
  | col, c :: cs, cur =>
    if isSeparator c then flush line col cur ++ splitWords line (col + 1) cs []
    else splitWords line (col + 1) cs (c :: cur)

/-- The words of a line, up to the comment character (R70). DESIGN CHOICE, unsafe; log 19. -/
def words (p : AsmParams) (line : Nat) (text : Text) : List Word :=
  splitWords line 0 (text.takeWhile (· != p.commentChar)) []

/-! ### Mnemonics and names (R70, R71, R74, R75) -/

/-- The opcode of a mnemonic word, in capitals; the conditional jumps are not among them (R71, R74). -/
def mnemonic : Text → Option Opcode
  | ['L', 'O', 'A', 'D'] => some .load
  | ['S', 'T', 'O', 'R', 'E'] => some .store
  | ['D', 'A', 'T', 'A'] => some .data
  | ['J', 'M', 'P', 'R'] => some .jmpr
  | ['J', 'M', 'P'] => some .jmp
  | ['C', 'L', 'F'] => some .clf
  | ['P', 'A', 'D'] => some .pad
  | ['A', 'D', 'D'] => some .add
  | ['S', 'H', 'R'] => some .shr
  | ['S', 'H', 'L'] => some .shl
  | ['N', 'O', 'T'] => some .not
  | ['A', 'N', 'D'] => some .and
  | ['O', 'R'] => some .or
  | ['X', 'O', 'R'] => some .xor
  | ['C', 'M', 'P'] => some .cmp
  | _ => none

/-- The mask bit of a conditional jump's letter: C bit 3, A bit 2, E bit 1, Z bit 0 (R74). -/
def letterMask : Char → Option Nibble
  | 'C' => some 0b1000
  | 'A' => some 0b0100
  | 'E' => some 0b0010
  | 'Z' => some 0b0001
  | _ => none

/-- The mask of a sequence of letters, in any order, repeats allowed (R74). -/
def lettersMask : Text → Option Nibble
  | [] => some 0
  | c :: cs =>
    match letterMask c, lettersMask cs with
    | some b, some m => some (b ||| m)
    | _, _ => none

/-- The names two labels are compared by: whether the case of letters counts is open (R75, R77, N17; log 17). -/
def nameKey (p : AsmParams) (name : Text) : Text :=
  if p.labelCaseMatters then name else name.map Char.toLower

/-- Whether an identifier may name a label: it has at least one character (R75), and which characters and how many it
may have is open (N17; log 17). -/
def labelNameOk (p : AsmParams) (name : Text) : Bool := !name.isEmpty && p.labelNameOk name

/-- The name in a label definition word: the marker, an identifier of at least one character, and `:` (R75). Which
identifiers there are is open (N17; log 17). -/
def labelDefName (p : AsmParams) (text : Text) : Option Text :=
  if 3 ≤ text.length ∧ text.head? = some p.labelMarker ∧ text.getLast? = some ':' ∧
      labelNameOk p (text.drop 1).dropLast then
    some (text.drop 1).dropLast
  else none

/-! ### Operands (R72, R73, R76) -/

/-- Whether a word is spelt as a mnemonic or a conditional jump (R71, R74). -/
def isInstructionWord (text : Text) : Bool :=
  (mnemonic (text.map Char.toUpper)).isSome || (text.head?.map Char.toUpper) == some 'J'

/-- A register's name as it is compared: whether a small `r` counts as `R` is open (N17; log 17). -/
def registerKey (p : AsmParams) (text : Text) : Text :=
  if p.registerCaseMatters then text else text.map Char.toUpper

/-- A register word, `R0` to `R3` (R72). DESIGN CHOICE for the class of other words; log 20. -/
def parseRegister (p : AsmParams) (w : Word) : Except AsmError Reg :=
  match registerKey p w.text with
  | ['R', '0'] => .ok .r0
  | ['R', '1'] => .ok .r1
  | ['R', '2'] => .ok .r2
  | ['R', '3'] => .ok .r3
  | 'R' :: _ => .error (.badRegister w.line w.text)
  | _ => .error (.syntactic w.line w.text)

/-- The word that names a register (R70, R72). -/
def registerText : Reg → Text
  | .r0 => ['R', '0']
  | .r1 => ['R', '1']
  | .r2 => ['R', '2']
  | .r3 => ['R', '3']

/-- The value of a hexadecimal digit. -/
def hexDigit (c : Char) : Option Nat :=
  if '0' ≤ c ∧ c ≤ '9' then some (c.toNat - '0'.toNat)
  else if 'a' ≤ c ∧ c ≤ 'f' then some (c.toNat - 'a'.toNat + 10)
  else if 'A' ≤ c ∧ c ≤ 'F' then some (c.toNat - 'A'.toNat + 10)
  else none

/-- The value of a decimal digit. -/
def decDigit (c : Char) : Option Nat :=
  if '0' ≤ c ∧ c ≤ '9' then some (c.toNat - '0'.toNat) else none

/-- The number the digits spell in a base, `acc` being the value of those already read. -/
def digitsValue (digit : Char → Option Nat) (base : Nat) : Text → Nat → Option Nat
  | [], acc => some acc
  | c :: cs, acc =>
    match digit c with
    | some d => digitsValue digit base cs (acc * base + d)
    | none => none

/-- A literal's value as a byte: at most 255 (R73), in a word that is not too long (R80). How long a literal may be is
open (N17; log 17). The length is checked before the range: DESIGN CHOICE, unsafe; log 22. -/
def byteOfLiteral (p : AsmParams) (w : Word) (v : Nat) : Except AsmError Byte :=
  if p.maxLiteralLength.any (· < w.text.length) then .error (.literalTooLong w.line w.col w.text)
  else if v ≤ 255 then .ok (BitVec.ofNat 8 v)
  else .error (.badLiteral w.line w.text)

/-- Whether a word begins as a decimal literal does. -/
def beginsWithDigit (text : Text) : Bool := text.head?.any (fun c => (decDigit c).isSome)

/-- Why a word is no literal (R73, R80). DESIGN CHOICE for the class where R80 does not decide it; log 20. -/
def literalError (w : Word) : AsmError :=
  if isInstructionWord w.text then .syntactic w.line w.text
  else if w.text.all (fun c => (hexDigit c).isSome) then .hexWithoutPrefix w.line w.col w.text
  else if beginsWithDigit w.text then .malformedWord w.line w.col w.text
  else .syntactic w.line w.text

/-- A literal: decimal digits, or hex digits after `0x` (R73). Its length limit is open (N17; log 17). -/
def parseLiteral (p : AsmParams) (w : Word) : Except AsmError Byte :=
  match w.text with
  | ['0', 'x'] => .error (.literalTooShort w.line w.col w.text)
  | '0' :: 'x' :: ds =>
    match digitsValue hexDigit 16 ds 0 with
    | some v => byteOfLiteral p w v
    | none => .error (.malformedWord w.line w.col w.text)
  | d :: ds =>
    match digitsValue decDigit 10 (d :: ds) 0 with
    | some v => byteOfLiteral p w v
    | none => .error (literalError w)
  | [] => .error (.syntactic w.line w.text)

/-- An address operand: a label reference, whose byte is a placeholder, or a literal (R71, R76). Which identifiers name
a label is open (N17; log 17). -/
def parseAddress (p : AsmParams) (w : Word) : Except AsmError (Byte × Option Text) :=
  match w.text with
  | c :: name =>
    if c = p.labelMarker then
      if name.getLast? = some ':' then .error (.syntactic w.line w.text)
      else if labelNameOk p name then .ok (0, some name)
      else .error (.malformedWord w.line w.col w.text)
    else (parseLiteral p w).map (·, none)
  | [] => .error (.syntactic w.line w.text)

/-- DATA's value: a literal, or a label where `labelAsData` says so (D22). -/
def parseValue (p : AsmParams) (w : Word) : Except AsmError (Byte × Option Text) :=
  if p.labelAsData then parseAddress p w
  else if w.text.head? = some p.labelMarker then .error (.syntactic w.line w.text)
  else (parseLiteral p w).map (·, none)

/-! ### Statements (R70, R71, R74, R75) -/

/-- A statement with another number of operands than its mnemonic takes (R80). Each statement is checked for it before any
operand is read. DESIGN CHOICE, unsafe; log 22. -/
def operandError (w : Word) (ops : List Word) : AsmError :=
  .syntactic w.line (w.text ++ ops.flatMap (fun o => ' ' :: o.text))

/-- A statement of two register operands, `RA` first (R71, D11; log 18). Of two faulty operands the left one is reported,
after the number of operands (log 22). -/
def parseRaRb (p : AsmParams) (w : Word) (make : Reg → Reg → Instr) : List Word → Except AsmError Statement
  | [wa, wb] => do
    let ra ← parseRegister p wa
    let rb ← parseRegister p wb
    return .code (make ra rb) none
  | ops => .error (operandError w ops)

/-- A statement of one address operand (R71). The number of operands is checked first (log 22). -/
def parseJump (p : AsmParams) (w : Word) (make : Byte → Instr) : List Word → Except AsmError Statement
  | [wa] => do
    let (addr, ref) ← parseAddress p wa
    return .code (make addr) ref
  | ops => .error (operandError w ops)

/-- A statement of no operand (R71); log 22 for a faulty word after it. -/
def parseBare (w : Word) (i : Instr) : List Word → Except AsmError Statement
  | [] => .ok (.code i none)
  | ops => .error (operandError w ops)

/-- A mnemonic that begins with `J` and is neither `JMP` nor `JMPR` (R74; the bare `J` is D23). Its letters are
checked before its operands. DESIGN CHOICE, unsafe; log 22. -/
def parseJletters (p : AsmParams) (w : Word) (letters : Text) (ops : List Word) : Except AsmError Statement :=
  if letters.isEmpty ∧ ¬ p.bareJIsMnemonic then .error (.invalidInstruction w.line w.text)
  else
    match lettersMask letters with
    | some mask => parseJump p w (.jcond mask) ops
    | none => .error (.invalidInstruction w.line w.text)

/-- Whether a word is spelt as a register, whatever its number. -/
def isRegisterWord (p : AsmParams) (text : Text) : Bool :=
  match registerKey p text with
  | 'R' :: d :: ds => (d :: ds).all (fun c => (decDigit c).isSome)
  | _ => false

/-- Why a word is no instruction: a label, register or literal is unexpected there, a word of letters and digits is an
unknown mnemonic, any other holds a malformed character (R80). DESIGN CHOICE for the class where R80 does not decide
it; log 20. -/
def instructionError (p : AsmParams) (w : Word) : AsmError :=
  if w.text.head? = some p.labelMarker ∨ isRegisterWord p w.text ∨ beginsWithDigit w.text then .syntactic w.line w.text
  else if w.text.all Char.isAlphanum then .unknownInstruction w.line w.text
  else .malformedWord w.line w.col w.text

/-- The instruction of a mnemonic word and its operand words (R71). Mnemonics are case-insensitive (R70). Where a
line has several faults, the mnemonic comes first, then the number of operands, then the operands from left to right.
DESIGN CHOICE, unsafe; log 22. -/
def parseInstr (p : AsmParams) (w : Word) (ops : List Word) : Except AsmError Statement :=
  let upper := w.text.map Char.toUpper
  match mnemonic upper with
  | some .load => parseRaRb p w .load ops
  | some .store => parseRaRb p w .store ops
  | some .data =>
    match ops with
    | [wr, wv] => do
      let rb ← parseRegister p wr
      let (value, ref) ← parseValue p wv
      return .code (.data rb value) ref
    | _ => .error (operandError w ops)
  | some .jmpr =>
    match ops with
    | [wr] => do return .code (.jmpr (← parseRegister p wr)) none
    | _ => .error (operandError w ops)
  | some .jmp => parseJump p w .jmp ops
  | some .jcond => .error (.unknownInstruction w.line w.text)
  | some .clf => parseBare w .clf ops
  | some .pad => if p.padIsMnemonic then parseBare w .pad ops else .error (.unknownInstruction w.line w.text)
  | some .add => parseRaRb p w .add ops
  | some .shr => parseRaRb p w .shr ops
  | some .shl => parseRaRb p w .shl ops
  | some .not => parseRaRb p w .not ops
  | some .and => parseRaRb p w .and ops
  | some .or => parseRaRb p w .or ops
  | some .xor => parseRaRb p w .xor ops
  | some .cmp => parseRaRb p w .cmp ops
  | none =>
    match upper with
    | 'J' :: letters => parseJletters p w letters ops
    | _ => .error (instructionError p w)

/-- The label a line defines, if it is a well-formed label definition (R70, R75). -/
def lineLabel (p : AsmParams) (line : Nat) (text : Text) : Option Text :=
  match words p line text with
  | [w] => labelDefName p w.text
  | _ => none

/-- The statement of a line, `none` for a line without words (R70: one statement per line). A word that ends in `:` is checked
before the words after it. DESIGN CHOICE, unsafe; log 22. -/
def parseLine (p : AsmParams) (line : Nat) (text : Text) : Except AsmError (Option Statement) :=
  match words p line text with
  | [] => .ok none
  | w :: ops =>
    if w.text.getLast? = some ':' then
      match labelDefName p w.text with
      | some name => if ops.isEmpty then .ok (some (.labelDef name)) else .error (operandError w ops)
      | none => .error (.malformedWord line w.col w.text)
    else (parseInstr p w ops).map some

/-! ### Emission (R75, R76, R77, R79) -/

/-- A label's definition: its name, the number of bytes emitted before it, and its line (R75). -/
structure LabelDef where
  name : Text
  offset : Nat
  line : Nat
  deriving DecidableEq, Repr

/-- A reference to be resolved: the label, the offset of the operand byte to write, and the line (R76). -/
structure PatchRequest where
  name : Text
  offset : Nat
  line : Nat
  deriving DecidableEq, Repr

/-- What the emission pass has collected, each list in source order; `lateDefs` are the definitions that stand after the
cut at the ceiling, empty where nothing was cut. -/
structure Emitted where
  bytes : List Byte
  defs : List LabelDef
  refs : List PatchRequest
  warnings : List AsmWarning
  lateDefs : List LabelDef
  deriving DecidableEq, Repr

/-- Nothing collected yet. -/
def Emitted.start : Emitted := ⟨[], [], [], [], []⟩

/-- The definition of a name, if there is one (R77). What counts as the same name is `nameKey` (N17; log 17). -/
def findDef (p : AsmParams) (defs : List LabelDef) (name : Text) : Option LabelDef :=
  defs.find? (fun d => nameKey p d.name == nameKey p name)

/-- Emits one instruction that fits; a reference's patch location is its operand byte (R76). -/
def Emitted.emit (e : Emitted) (line : Nat) (i : Instr) (ref : Option Text) : Emitted :=
  { e with
    bytes := e.bytes ++ encode i
    refs := e.refs ++ (ref.map (⟨·, e.bytes.length + 1, line⟩)).toList }

/-- The label definitions on the lines from number `line` on that stand after the cut. Nothing else is taken from those
lines. Their value is no byte, and `memorySize` stands for it (R79; log 21). -/
def lateLabels (p : AsmParams) : List Text → Nat → List LabelDef
  | [], _ => []
  | text :: rest, line =>
    ((lineLabel p line text).map (⟨·, Config.memorySize, line⟩)).toList ++ lateLabels p rest (line + 1)

/-- The end of the emission when an instruction would pass the 256-byte ceiling: the output has exactly 256 bytes, and
the warning is recorded (R79). What byte 255 holds is open (D18; log 17). `late` are the definitions in the rest of
the source, so that a reference to one of them is no error (log 21). -/
def Emitted.truncate (p : AsmParams) (e : Emitted) (line : Nat) (i : Instr) (late : List LabelDef) : Emitted :=
  { e with
    bytes :=
      if e.bytes.length < Config.memorySize then e.bytes ++ [p.byteAtCut (opcodeByteWith opcodeNumber i)]
      else e.bytes
    warnings := e.warnings ++ [.truncated line]
    lateDefs := late }

/-- The emission pass over the lines from number `line` on (R77: a single pass; R80: the first fatal
condition ends it; R79: emission stops at the ceiling). -/
def emitLines (p : AsmParams) : List Text → Nat → Emitted → Except AsmError Emitted
  | [], _, e => .ok e
  | text :: rest, line, e =>
    match parseLine p line text with
    | .error err => .error err
    | .ok none => emitLines p rest (line + 1) e
    | .ok (some (.labelDef name)) =>
      match findDef p e.defs name with
      | some d => .error (.duplicateLabel line d.line name)
      | none => emitLines p rest (line + 1) { e with defs := e.defs ++ [⟨name, e.bytes.length, line⟩] }
    | .ok (some (.code i ref)) =>
      if e.bytes.length + i.length > Config.memorySize then .ok (e.truncate p line i (lateLabels p rest (line + 1)))
      else emitLines p rest (line + 1) (e.emit line i ref)

/-! ### Resolution (R77, R78) -/

/-- The byte of a label's value (R77); a value that is no byte the spec does not decide (N19; log 17). -/
def labelByte (p : AsmParams) (d : LabelDef) : Byte :=
  if d.offset < Config.memorySize then BitVec.ofNat 8 d.offset else p.byteOutside d.name

/-- The resolution pass: every reference's byte becomes the value of its label (R77). The first reference in
source order without a definition ends it (log 21), and the error has the reference's line alone (log 23). -/
def resolve (p : AsmParams) (defs : List LabelDef) : List PatchRequest → List Byte → Except AsmError (List Byte)
  | [], bytes => .ok bytes
  | r :: rest, bytes =>
    match findDef p defs r.name with
    | some d => resolve p defs rest (bytes.set r.offset (labelByte p d))
    | none => .error (.undefinedLabel r.line r.name)

/-- A warning for each label that is defined before the cut and never referenced (R78). -/
def unusedWarnings (p : AsmParams) (e : Emitted) : List AsmWarning :=
  (e.defs.filter (fun d => e.refs.all (fun r => nameKey p r.name != nameKey p d.name))).map
    (fun d => .unusedLabel d.line d.name)

/-- A successful compile: the image and the warnings (R80). -/
structure AsmOutput where
  image : List Byte
  warnings : List AsmWarning
  deriving DecidableEq, Repr

/-- The assembler: source lines to an image, or the first fatal condition (R80: no partial output). -/
def assemble (p : AsmParams) (source : List Text) : Except AsmError AsmOutput :=
  match emitLines p source 1 Emitted.start with
  | .error err => .error err
  | .ok e =>
    match resolve p (e.defs ++ e.lateDefs) e.refs e.bytes with
    | .error err => .error err
    | .ok image => .ok ⟨image, e.warnings ++ unusedWarnings p e⟩

end Sys2Proof.Asm
end

