-- ==== Sys2Proof/Machine/StepBlock.lean ====
section
/-! DEFINITION. The one-block pseudocode of spec/40_step_cycle.md R95, line for line: a second description of
the step, read off IR and MAR, that shares no instruction meaning, flag computation or decoder with
the first. `CF`, `AF`, `EF`, `ZF` are written as `(cond) ? 1 : 0`, and `>>`, `<<`, `+` are on unbounded
integers. A claim can say that the two agree. -/

namespace Sys2Proof.Machine

/-- `OPCODE_MAP(IR[7:4])` in R95's case, as R92's table lists it. -/
def State.blockOpcode (s : State) : Opcode := opcodeMap (s.ir.extractLsb' 4 4)

/-- R95's `step(s)`. -/
def stepBlock (s0 : State) : State :=
  let s := { s0 with mar := s0.iar }
  let s := { s with ir := s.memRead s.mar }
  let s := { s with iar := s.iar + 1 }
  let ra := regOfBits (s.ir.extractLsb' 2 2)
  let rb := regOfBits (s.ir.extractLsb' 0 2)
  let mask := s.ir.extractLsb' 0 4
  let a := s.reg ra
  let b := s.reg rb
  let c := if s.cf then 1 else 0
  match s.blockOpcode with
  | .load =>
    let s := { s with mar := a }
    s.setReg rb (s.memRead s.mar)
  | .store =>
    let s := { s with mar := a }
    s.memWrite s.mar b
  | .data =>
    let s := { s with mar := s.iar }
    let s := s.setReg rb (s.memRead s.mar)
    { s with iar := s.iar + 1 }
  | .jmpr => { s with iar := b }
  | .jmp =>
    let s := { s with mar := s.iar }
    { s with iar := s.memRead s.mar }
  | .jcond =>
    let s := { s with mar := s.iar }
    let s := { s with iar := s.iar + 1 }
    let fl := BitVec.ofBool s.cf ++ BitVec.ofBool s.af ++ BitVec.ofBool s.ef ++ BitVec.ofBool s.zf
    if mask &&& fl ≠ 0 then { s with iar := s.memRead s.mar } else s
  | .clf => { s with cf := false, af := false, ef := false, zf := false }
  | .pad => s
  | .add =>
    let t := BitVec.ofNat 8 (a.toNat + b.toNat + c)
    let s := { s with cf := decide (a.toNat + b.toNat > 255) }
    { s.setReg rb t with zf := decide (t = 0) }
  | .shr =>
    let t := BitVec.ofNat 8 ((a.toNat >>> 1) ||| (c <<< 7))
    let s := { s with cf := a.getLsbD 0 }
    { s.setReg rb t with zf := decide (t = 0) }
  | .shl =>
    let t := BitVec.ofNat 8 ((a.toNat <<< 1) ||| c)
    let s := { s with cf := a.getLsbD 7 }
    { s.setReg rb t with zf := decide (t = 0) }
  | .not =>
    let t := ~~~a
    { s.setReg rb t with zf := decide (t = 0) }
  | .and =>
    let t := b &&& a
    { s.setReg rb t with zf := decide (t = 0) }
  | .or =>
    let t := b ||| a
    { s.setReg rb t with zf := decide (t = 0) }
  | .xor =>
    let t := b ^^^ a
    { s.setReg rb t with zf := decide (t = 0) }
  | .cmp =>
    let s := { s with af := decide (a.toNat > b.toNat) }
    { s with ef := decide (a = b) }

end Sys2Proof.Machine
end

