-- ==== Sys2Proof/Machine/HostOps.lean ====
section
/-! DEFINITION. The host operations (spec/70_reset_and_hazards.md R180 to R186): what the machine's second
agent (spec/10_state.md R21) may do, each between two steps (D15; log 13). -/

namespace Sys2Proof.Machine

/-- `reset_registers` (R181): the eleven register-file items zero, memory unchanged. Its extent is the
spec's decision D5. DESIGN CHOICE, unsafe; log 5. -/
def State.resetRegisters (s : State) : State :=
  { State.reset with mem := s.mem }

/-- Copies bytes into memory from address `at0` up, modulo 256. -/
def State.copyFrom (s : State) (at0 : Byte) : List Byte → State
  | [] => s
  | v :: rest => (s.memWrite at0 v).copyFrom (at0 + 1) rest

/-- `load(program)` (R182): at most the first 256 bytes, byte i to cell i. No register changes, and the cells above
keep their value, which is the spec's decision D6. DESIGN CHOICE, unsafe; log 6. -/
def State.load (s : State) (program : List Byte) : State :=
  s.copyFrom 0 (program.take Config.memorySize)

/-- What the host may do between steps (R186). -/
inductive HostAction where
  /-- `reset` (R180). -/
  | reset
  /-- `reset_registers` (R181). -/
  | resetRegisters
  /-- `load(program)`, with any bytes (R182). -/
  | load (program : List Byte)
  /-- `step()` (R183). -/
  | step
  /-- Reading any item of the state (R184). -/
  | inspect
  deriving DecidableEq, Repr

/-- The outcome of one host action. -/
def hostAct (s : State) : HostAction → Result
  | .reset => .next State.reset
  | .resetRegisters => .next s.resetRegisters
  | .load program => .next (s.load program)
  | .step => Machine.step s
  | .inspect => .next s

/-- A sequence of host actions, one after another (R21, R37). -/
def hostRun (s : State) : List HostAction → Result
  | [] => .next s
  | act :: rest =>
    match hostAct s act with
    | .next s' => hostRun s' rest
    | .fault r => .fault r
    | .refused r => .refused r

end Sys2Proof.Machine
end

