-- ==== Sys2Proof/Safety.lean ====
section
/-! DEFINITION. What counts as a safe outcome, the invariant of the machine, the end of a run,
and the vocabulary of claims about whole steps. -/

namespace Sys2Proof.Machine

/-- The invariant of the machine's states: memory is in canonical form. It says nothing of the eleven register-file
items, which are arbitrary in a machine that was loaded but not reset (R23, D16; log 13). -/
def State.inv (s : State) : Bool := Memory.wf s.mem

/-- AF and EF are not both 1. No instruction brings about that they are (CMP sets at most one of them, R133, and only
CMP and CLF write them, R15), but a machine that was not reset may hold both (R23), so this is no part of `State.inv`. -/
def State.compareFlagsExclusive (s : State) : Bool := !(s.af && s.ef)

/-- An outcome is safe when the machine goes on, in a state that meets the invariant. -/
def safeOutcome : Result → Prop
  | .next s => s.inv = true
  | .fault _ => False
  | .refused _ => False

/-- A state that `step` maps to itself: the spec's convention for the end of a run
(spec/40_step_cycle.md R96, D8; log 16). -/
def fixedPoint (s : State) : Prop := step s = .next s

/-! ### What the next step will execute, for claims about whole steps -/

/-- The opcode of the next step, by the high nibble of the byte at IAR (R50, R92). -/
def State.nextOpcode (s : State) : Opcode := opcodeMap ((s.memRead s.iar).extractLsb' 4 4)

/-- `RA` of the next step: the register of bits 3 to 2 of the byte at IAR (R54). -/
def State.nextRa (s : State) : Reg := regOfBits ((s.memRead s.iar).extractLsb' 2 2)

/-- `RB` of the next step: the register of bits 1 to 0 of the byte at IAR (R54). -/
def State.nextRb (s : State) : Reg := regOfBits ((s.memRead s.iar).extractLsb' 0 2)

/-- The mask of the next step, if it is a JCOND: bits 3 to 0 of the byte at IAR (R55). -/
def State.nextMask (s : State) : Nibble := (s.memRead s.iar).extractLsb' 0 4

/-- Some flag that a mask selects is set: bit 3 selects CF, bit 2 AF, bit 1 EF, bit 0 ZF (R55, R112). -/
def State.anyFlagSet (s : State) (mask : Nibble) : Bool :=
  mask.getLsbD 3 && s.cf || mask.getLsbD 2 && s.af || mask.getLsbD 1 && s.ef || mask.getLsbD 0 && s.zf

end Sys2Proof.Machine
end

