-- ==== Sys2Proof/Certificates/Slice0/Obligations.lean ====
section
/-! DEFINITION. The statements for the provers. A docstring names the rule a statement formalises, or, where it
rests on a decision or an inference of the spec, that decision and its log entry. -/

open Sys2Proof Sys2Proof.Machine

/-! ### The step (40_step_cycle.md) -/

/-- R91: the three actions of the fetch come first, then the instruction that the bytes at IAR decode to runs on
the state they leave. -/
def Obligations.StepRunsTheDecodedInstruction : Prop :=
  ∀ (s : State) (i : Instr) (rest : List Byte),
    decode [s.memRead s.iar, s.memRead (s.iar + 1)] = .instr i rest → i.wf = true →
    step s = exec i { s with mar := s.iar, ir := s.memRead s.iar, iar := s.iar + 1 }

/-- R93: every state has exactly one next state, so no step faults and none is refused. -/
def Obligations.StepIsTotalAndDeterministic : Prop :=
  ∀ s : State, ∃! t : State, step s = .next t

/-- The step is the one-block pseudocode of R95 (a rule the spec marks as derived). Its ADD and SHL lines rest on
decisions D9 and D10 and on the spec's inference N28 (log 3, log 2, log 14). -/
def Obligations.StepAgreesWithOneBlockPseudocode : Prop :=
  ∀ s : State, step s = .next (stepBlock s)

/-! ### Decoding and encoding (30_encoding.md) -/

/-- Words written out from R52's formats with the numbers of decision D1 (log 1), and the three words of section 10's
program, decode to the instructions they stand for. That a DATA byte with no byte after it is rejected as
`noOperandByte` is the model's choice (log 12). -/
def Obligations.DecodedWords : Prop :=
  decode [0b00000000] = .instr (.load .r0 .r0) [] ∧
  decode [0b00000001] = .instr (.load .r0 .r1) [] ∧ decode [0b00011011] = .instr (.store .r2 .r3) [] ∧
  decode [0b00100000, 0x05] = .instr (.data .r0 0x05) [] ∧
  decode [0b00100001, 0x03] = .instr (.data .r1 0x03) [] ∧ decode [0b00110010] = .instr (.jmpr .r2) [] ∧
  decode [0b01000000, 0x80] = .instr (.jmp 0x80) [] ∧ decode [0b01011001, 0x80] = .instr (.jcond 0b1001 0x80) [] ∧
  decode [0b01101111] = .instr .clf [] ∧ decode [0b01110101] = .instr .pad [] ∧
  decode [0b10000001] = .instr (.add .r0 .r1) [] ∧ decode [0b10101011] = .instr (.shl .r2 .r3) [] ∧
  decode [0b11111011] = .instr (.cmp .r2 .r3) [] ∧ decode [0b00100000] = .rejected .noOperandByte

/-- The opcode by the range of the opcode byte (the table of R61, which the spec marks as derived; the numbers are
decision D1, log 1). -/
def Obligations.OpcodeByteRanges : Prop :=
  ∀ r ∈ [(0x00, 0x0F, Opcode.load), (0x10, 0x1F, .store), (0x20, 0x2F, .data), (0x30, 0x3F, .jmpr),
      (0x40, 0x4F, .jmp), (0x50, 0x5F, .jcond), (0x60, 0x6F, .clf), (0x70, 0x7F, .pad),
      (0x80, 0x8F, .add), (0x90, 0x9F, .shr), (0xA0, 0xAF, .shl), (0xB0, 0xBF, .not),
      (0xC0, 0xCF, .and), (0xD0, 0xDF, .or), (0xE0, 0xEF, .xor), (0xF0, 0xFF, .cmp)],
    ∀ b x : Byte, r.1 ≤ b.toNat → b.toNat ≤ r.2.1 → (decodeBytes b x).opcode = r.2.2

/-- R57: bits 3 to 2 of DATA and JMPR and bits 3 to 0 of JMP, CLF and PAD are ignored; a byte that differs only
there executes alike, but for what IR (and the cell itself) holds. Memory is in canonical form. -/
def Obligations.DontCareBitsAreIgnored : Prop :=
  ∀ (s t : State) (b : Byte), Memory.wf s.mem = true →
    b.extractLsb' 4 4 = (s.memRead s.iar).extractLsb' 4 4 →
    ((s.nextOpcode = .data ∨ s.nextOpcode = .jmpr) ∧ b.extractLsb' 0 2 = (s.memRead s.iar).extractLsb' 0 2 ∨
      s.nextOpcode = .jmp ∨ s.nextOpcode = .clf ∨ s.nextOpcode = .pad) →
    step s = .next t →
    step (s.memWrite s.iar b) = .next { t.memWrite s.iar b with ir := b }

/-- Decoding what encoding gives is the instruction, every operand at every value, with whatever bytes follow,
for EVERY opcode map and numbering that fit together (R6: the map is a parameter). -/
def Obligations.DecodeOfEncodeIsTheInstruction : Prop :=
  ∀ (m : Nibble → Opcode) (num : Opcode → Nibble), (∀ o, m (num o) = o) →
    ∀ (i : Instr) (rest : List Byte), decodeWith m (encodeWith num i ++ rest) = .instr i rest

/-- Encoding what decoding gives returns the bytes exactly when the don't-care bits are zero; that the encoder
emits zeros there is decision D2 (log 8). -/
def Obligations.EncodeOfDecodeOnlyForCanonicalBytes : Prop :=
  ∀ b x : Byte,
    encode (decodeBytes b x) = (if (decodeBytes b x).length = 2 then [b, x] else [b]) ↔
      (decodeBytes b x).opcode.canonical b = true

/-! ### Memory (20_memory.md) -/

/-- R31: a write puts the value into its cell and changes no other, and the CPU's accesses go through MAR, which
is written with the address first. Memory is in canonical form. -/
def Obligations.ReadAfterWrite : Prop :=
  ∀ (s : State) (a v : Byte), Memory.wf s.mem = true →
    (s.memWrite a v).memRead a = v ∧ (∀ b, b ≠ a → (s.memWrite a v).memRead b = s.memRead b) ∧
    s.readVia a = (s.memRead a, { s with mar := a }) ∧ s.writeVia a v = { s.memWrite a v with mar := a }

/-- Two memories in canonical form that read alike at all 256 addresses are the same data. -/
def Obligations.CanonicalMemoriesReadingAlikeAreEqual : Prop :=
  ∀ m m' : Memory, Memory.wf m = true → Memory.wf m' = true →
    (∀ a : Byte, Memory.read m a = Memory.read m' a) → m = m'

/-- A store is seen by the very next fetch, and the STORE's own step still executes as fetched (R39, which the
spec marks as derived). Memory is in canonical form. -/
def Obligations.StoreIsSeenByTheNextFetch : Prop :=
  ∀ s t : State, Memory.wf s.mem = true → s.nextOpcode = .store → step s = .next t →
    t.ir = s.memRead s.iar ∧
    (s.reg s.nextRa = s.iar + 1 → t.nextOpcodeByte = s.reg s.nextRb) ∧
    (s.reg s.nextRa = s.iar → t.memRead s.iar = s.reg s.nextRb ∧ t.nextOpcodeByte = s.memRead (s.iar + 1))

/-- At address 255 an instruction takes its operand byte from address 0, and execution goes on at 0 or 1 (R43, which
the spec marks as derived). -/
def Obligations.InstructionAtTheTopOfMemoryWraps : Prop :=
  ∀ s t : State, s.iar = 255 → step s = .next t →
    (s.nextOpcode = .data → t.reg s.nextRb = s.memRead 0 ∧ t.iar = 1) ∧
    (s.nextOpcode = .jmp → t.iar = s.memRead 0) ∧
    (s.nextOpcode = .jcond → t.iar = if s.anyFlagSet s.nextMask then s.memRead 0 else 1) ∧
    (s.nextOpcode.length = 1 → s.nextOpcode ≠ .jmpr → t.iar = 0)

/-! ### LOAD, STORE, DATA (41_load_store_data.md)

Each statement of this and the next sections gives the instruction's encoding for every opcode map (the
number is R53's), and its whole effect after the common fetch of R91. -/

/-- R100: format RR; MAR gets the address RA held, RB the byte there, and nothing else changes. -/
def Obligations.LoadCopiesTheAddressedByte : Prop :=
  (∀ (m : Nibble → Opcode) (b x : Byte), m (b.extractLsb' 4 4) = .load →
    decodeBytesWith m b x = .load (regOfBits (b.extractLsb' 2 2)) (regOfBits (b.extractLsb' 0 2))) ∧
  ∀ (ra rb : Reg) (s : State),
    exec (.load ra rb) s = .next (({ s with mar := s.reg ra } : State).setReg rb (s.memRead (s.reg ra)))

/-- R101: format RR; MAR gets the address RA held, the cell there the value RB held, every other cell and every other
item is unchanged. That the cell reads as the value needs memory in canonical form; that STORE completes does not. -/
def Obligations.StoreWritesTheAddressedByte : Prop :=
  (∀ (m : Nibble → Opcode) (b x : Byte), m (b.extractLsb' 4 4) = .store →
    decodeBytesWith m b x = .store (regOfBits (b.extractLsb' 2 2)) (regOfBits (b.extractLsb' 0 2))) ∧
  ∀ (ra rb : Reg) (s : State),
    ∃ t : State, exec (.store ra rb) s = .next t ∧ (Memory.wf s.mem = true → t.memRead (s.reg ra) = s.reg rb) ∧
      (∀ a, a ≠ s.reg ra → t.memRead a = s.memRead a) ∧ t = { s with mar := s.reg ra, mem := t.mem }

/-- R102: format RI; RB gets the operand byte unchanged, MAR the operand byte's address, IAR passes it. -/
def Obligations.DataLoadsTheOperandByte : Prop :=
  (∀ (m : Nibble → Opcode) (b x : Byte), m (b.extractLsb' 4 4) = .data →
    decodeBytesWith m b x = .data (regOfBits (b.extractLsb' 0 2)) x) ∧
  ∀ (rb : Reg) (value : Byte) (s : State),
    exec (.data rb value) s = .next (({ s with mar := s.iar, iar := s.iar + 1 } : State).setReg rb value)

/-- The frame of LOAD and DATA: every register but RB, every flag, IR and every byte of memory is unchanged; MAR is
the address of the access, and LOAD leaves IAR alone. -/
def Obligations.LoadAndDataChangeOnlyRbMarAndIar : Prop :=
  ∀ (ra rb : Reg) (value : Byte) (s t : State),
    (exec (.load ra rb) s = .next t → t.mar = s.reg ra ∧ t.iar = s.iar) ∧
    (exec (.data rb value) s = .next t → t.mar = s.iar) ∧
    (exec (.load ra rb) s = .next t ∨ exec (.data rb value) s = .next t →
      (∀ r, r ≠ rb → t.reg r = s.reg r) ∧ t.cf = s.cf ∧ t.af = s.af ∧ t.ef = s.ef ∧ t.zf = s.zf ∧ t.ir = s.ir ∧
      ∀ a, t.memRead a = s.memRead a)

/-- The frame of STORE: only MAR and the byte at the effective address may change. -/
def Obligations.StoreChangesOnlyMarAndOneByte : Prop :=
  ∀ (ra rb : Reg) (s t : State), exec (.store ra rb) s = .next t →
    (∀ r, t.reg r = s.reg r) ∧ t.cf = s.cf ∧ t.af = s.af ∧ t.ef = s.ef ∧ t.zf = s.zf ∧ t.iar = s.iar ∧
    t.ir = s.ir ∧ ∀ a, a ≠ s.effectiveAddress ra → t.memRead a = s.memRead a

/-! ### JMPR, JMP, JCOND (42_jumps.md) -/

/-- R110: format R; IAR gets RB, and nothing else changes. -/
def Obligations.JmprJumpsToRb : Prop :=
  (∀ (m : Nibble → Opcode) (b x : Byte), m (b.extractLsb' 4 4) = .jmpr →
    decodeBytesWith m b x = .jmpr (regOfBits (b.extractLsb' 0 2))) ∧
  ∀ (rb : Reg) (s : State), exec (.jmpr rb) s = .next { s with iar := s.reg rb }

/-- R111: format A; MAR gets the operand byte's address, IAR the operand byte. -/
def Obligations.JmpJumpsToTheOperandByte : Prop :=
  (∀ (m : Nibble → Opcode) (b x : Byte), m (b.extractLsb' 4 4) = .jmp → decodeBytesWith m b x = .jmp x) ∧
  ∀ (addr : Byte) (s : State), exec (.jmp addr) s = .next { s with mar := s.iar, iar := addr }

/-- R112: format CA; the jump is taken iff any flag the mask selects is set, the flags are not written, and MAR gets
the operand byte's address either way. -/
def Obligations.JcondJumpsIfAnySelectedFlagIsSet : Prop :=
  (∀ (m : Nibble → Opcode) (b x : Byte), m (b.extractLsb' 4 4) = .jcond →
    decodeBytesWith m b x = .jcond (b.extractLsb' 0 4) x) ∧
  ∀ (mask : Nibble) (addr : Byte) (s : State),
    exec (.jcond mask addr) s =
      .next { s with mar := s.iar, iar := if s.anyFlagSet mask then addr else s.iar + 1 }

/-- The frame of the three jumps: no register, no flag, no byte of memory and not IR; JMPR leaves MAR alone, JMP and
JCOND put the operand byte's address there. -/
def Obligations.JumpsChangeOnlyIarAndMar : Prop :=
  ∀ (rb : Reg) (mask : Nibble) (addr : Byte) (s t : State),
    (exec (.jmpr rb) s = .next t → t.mar = s.mar) ∧
    (exec (.jmp addr) s = .next t ∨ exec (.jcond mask addr) s = .next t → t.mar = s.iar) ∧
    (exec (.jmpr rb) s = .next t ∨ exec (.jmp addr) s = .next t ∨ exec (.jcond mask addr) s = .next t →
      (∀ r, t.reg r = s.reg r) ∧ t.cf = s.cf ∧ t.af = s.af ∧ t.ef = s.ef ∧ t.zf = s.zf ∧ t.ir = s.ir ∧
      ∀ a, t.memRead a = s.memRead a)

/-- What JA, JE and JAE test after a CMP (R114, which the spec marks as derived): the unsigned order of the values
the registers held. -/
def Obligations.CompareThenJumpTestsUnsignedOrder : Prop :=
  ∀ (ra rb : Reg) (addr : Byte) (s : State), ∃ t : State, exec (.cmp ra rb) s = .next t ∧
    exec (.jcond 0b0100 addr) t = .next { t with mar := s.iar, iar := if s.reg rb < s.reg ra then addr else s.iar + 1 } ∧
    exec (.jcond 0b0010 addr) t = .next { t with mar := s.iar, iar := if s.reg ra = s.reg rb then addr else s.iar + 1 } ∧
    exec (.jcond 0b0110 addr) t = .next { t with mar := s.iar, iar := if s.reg rb ≤ s.reg ra then addr else s.iar + 1 }

/-! ### CLF and PAD (43_clf.md, 45_pad.md) -/

/-- R120: format N; all four flags become 0 and nothing else changes. -/
def Obligations.ClfClearsTheFourFlags : Prop :=
  (∀ (m : Nibble → Opcode) (b x : Byte), m (b.extractLsb' 4 4) = .clf → decodeBytesWith m b x = .clf) ∧
  ∀ s : State, exec .clf s = .next { s with cf := false, af := false, ef := false, zf := false }

/-- R150: format N; nothing changes beyond the fetch, which R91 gives. -/
def Obligations.PadDoesNothing : Prop :=
  (∀ (m : Nibble → Opcode) (b x : Byte), m (b.extractLsb' 4 4) = .pad → decodeBytesWith m b x = .pad) ∧
  ∀ s : State, exec .pad s = .next s

/-- The frame of CLF and PAD: every register, IAR, MAR, IR and every byte of memory, and for PAD the flags too. -/
def Obligations.ClfAndPadChangeAtMostFlags : Prop :=
  ∀ s t : State,
    (exec .clf s = .next t ∨ exec .pad s = .next t → (∀ r, t.reg r = s.reg r) ∧ t.iar = s.iar ∧ t.mar = s.mar ∧
      t.ir = s.ir ∧ ∀ a, t.memRead a = s.memRead a) ∧
    (exec .pad s = .next t → t.cf = s.cf ∧ t.af = s.af ∧ t.ef = s.ef ∧ t.zf = s.zf)

/-! ### The ALU (44_alu.md) -/

/-- ADD: RB gets RA + RB + CF modulo 256, ZF says whether that is 0, and CF is 1 iff RA + RB, without the carry-in,
exceeds 255. That CF is cleared when it does not is decision D9 (log 3); that the carry-in is not counted is the
default of D10 (log 2). -/
def Obligations.AddAddsWithCarryIn : Prop :=
  (∀ (m : Nibble → Opcode) (b x : Byte), m (b.extractLsb' 4 4) = .add →
    decodeBytesWith m b x = .add (regOfBits (b.extractLsb' 2 2)) (regOfBits (b.extractLsb' 0 2))) ∧
  ∀ (ra rb : Reg) (s : State),
    let t : Byte := s.reg ra + s.reg rb + (if s.cf then 1 else 0)
    exec (.add ra rb) s =
      .next (({ s with cf := decide ((s.reg ra).toNat + (s.reg rb).toNat > 255), zf := decide (t = 0) } : State).setReg rb t)

/-- R127: format RR; a 9-bit rotate right of CF and RA into RB: bit 7 of the result is the old carry, bits 6 to 0 are
RA's bits 7 to 1, and CF gets RA's bit 0; ZF says whether the result is 0. -/
def Obligations.ShrRotatesRightThroughCarry : Prop :=
  (∀ (m : Nibble → Opcode) (b x : Byte), m (b.extractLsb' 4 4) = .shr →
    decodeBytesWith m b x = .shr (regOfBits (b.extractLsb' 2 2)) (regOfBits (b.extractLsb' 0 2))) ∧
  ∀ (ra rb : Reg) (s : State),
    let t : Byte := BitVec.cons s.cf ((s.reg ra).extractLsb' 1 7)
    exec (.shr ra rb) s =
      .next (({ s with cf := (s.reg ra).getLsbD 0, zf := decide (t = 0) } : State).setReg rb t)

/-- SHL: a 9-bit rotate left of CF and RA into RB: bits 7 to 1 of the result are RA's bits 6 to 0, bit 0 is the old
carry, and CF is 1 iff RA doubled exceeds 255. That CF is cleared when it does not is decision D9 (log 3), and that
the result is cut to 8 bits is the spec's inference N28 (log 14). -/
def Obligations.ShlRotatesLeftThroughCarry : Prop :=
  (∀ (m : Nibble → Opcode) (b x : Byte), m (b.extractLsb' 4 4) = .shl →
    decodeBytesWith m b x = .shl (regOfBits (b.extractLsb' 2 2)) (regOfBits (b.extractLsb' 0 2))) ∧
  ∀ (ra rb : Reg) (s : State),
    let t : Byte := BitVec.concat ((s.reg ra).extractLsb' 0 7) s.cf
    exec (.shl ra rb) s =
      .next (({ s with cf := decide (2 * (s.reg ra).toNat > 255), zf := decide (t = 0) } : State).setReg rb t)

/-- R129: format RR; RB gets 255 minus RA, and ZF says whether that is 0. -/
def Obligations.NotComplementsRa : Prop :=
  (∀ (m : Nibble → Opcode) (b x : Byte), m (b.extractLsb' 4 4) = .not →
    decodeBytesWith m b x = .not (regOfBits (b.extractLsb' 2 2)) (regOfBits (b.extractLsb' 0 2))) ∧
  ∀ (ra rb : Reg) (s : State),
    exec (.not ra rb) s =
      .next (({ s with zf := decide ((s.reg ra).toNat = 255) } : State).setReg rb (BitVec.ofNat 8 (255 - (s.reg ra).toNat)))

/-- R130, R131, R132: format RR; RB gets the bitwise and, or, exclusive or of RB and RA, and ZF says whether the result
is 0. -/
def Obligations.AndOrXorCombineBitwise : Prop :=
  (∀ (m : Nibble → Opcode) (b x : Byte),
    (m (b.extractLsb' 4 4) = .and →
      decodeBytesWith m b x = .and (regOfBits (b.extractLsb' 2 2)) (regOfBits (b.extractLsb' 0 2))) ∧
    (m (b.extractLsb' 4 4) = .or →
      decodeBytesWith m b x = .or (regOfBits (b.extractLsb' 2 2)) (regOfBits (b.extractLsb' 0 2))) ∧
    (m (b.extractLsb' 4 4) = .xor →
      decodeBytesWith m b x = .xor (regOfBits (b.extractLsb' 2 2)) (regOfBits (b.extractLsb' 0 2)))) ∧
  ∀ (ra rb : Reg) (s : State),
    exec (.and ra rb) s =
      .next (({ s with zf := decide (s.reg rb &&& s.reg ra = 0) } : State).setReg rb (s.reg rb &&& s.reg ra)) ∧
    exec (.or ra rb) s =
      .next (({ s with zf := decide (s.reg rb ||| s.reg ra = 0) } : State).setReg rb (s.reg rb ||| s.reg ra)) ∧
    exec (.xor ra rb) s =
      .next (({ s with zf := decide (s.reg rb ^^^ s.reg ra = 0) } : State).setReg rb (s.reg rb ^^^ s.reg ra))

/-- R133: format RR; AF is RA > RB unsigned, EF is RA = RB, nothing else changes; AF and EF are never both 1, and both
are 0 exactly when RA < RB. -/
def Obligations.CmpSetsGreaterAndEqual : Prop :=
  (∀ (m : Nibble → Opcode) (b x : Byte), m (b.extractLsb' 4 4) = .cmp →
    decodeBytesWith m b x = .cmp (regOfBits (b.extractLsb' 2 2)) (regOfBits (b.extractLsb' 0 2))) ∧
  ∀ (ra rb : Reg) (s : State), ∃ t : State, exec (.cmp ra rb) s = .next t ∧
    t = { s with af := decide ((s.reg ra).toNat > (s.reg rb).toNat), ef := decide (s.reg ra = s.reg rb) } ∧
    ¬ (t.af = true ∧ t.ef = true) ∧ ((t.af = false ∧ t.ef = false) ↔ (s.reg ra).toNat < (s.reg rb).toNat)

/-- R136: after ADD, SHR, SHL, NOT, AND, OR and XOR, ZF is 1 exactly when the value written to RB is 0, and the flags
their rules do not list as written keep their value. -/
def Obligations.ZfReflectsTheValueWritten : Prop :=
  ∀ (ra rb : Reg) (s : State) (i : Instr),
    i ∈ [.add ra rb, .shr ra rb, .shl ra rb, .not ra rb, .and ra rb, .or ra rb, .xor ra rb] →
    ∃ t : State, exec i s = .next t ∧ (t.zf = true ↔ t.reg rb = 0) ∧ t.af = s.af ∧ t.ef = s.ef ∧
      (i ∈ [.not ra rb, .and ra rb, .or ra rb, .xor ra rb] → t.cf = s.cf)

/-- The frame of the eight ALU instructions: every register but RB (for CMP every register), IAR, MAR, IR and every
byte of memory; CF but for ADD, SHR, SHL; AF and EF but for CMP; ZF for CMP. -/
def Obligations.AluChangesOnlyRbAndItsFlags : Prop :=
  ∀ (ra rb : Reg) (s t : State) (i : Instr),
    i ∈ [.add ra rb, .shr ra rb, .shl ra rb, .not ra rb, .and ra rb, .or ra rb, .xor ra rb, .cmp ra rb] →
    exec i s = .next t →
    (∀ r, r ≠ rb → t.reg r = s.reg r) ∧ (i = .cmp ra rb → t.reg rb = s.reg rb ∧ t.zf = s.zf) ∧
    (i ≠ .cmp ra rb → t.af = s.af ∧ t.ef = s.ef) ∧
    (i ∉ [.add ra rb, .shr ra rb, .shl ra rb] → t.cf = s.cf) ∧
    t.iar = s.iar ∧ t.mar = s.mar ∧ t.ir = s.ir ∧ ∀ a, t.memRead a = s.memRead a

/-- ADD's result is exact once the true carry is counted, and the carry-out with and without the carry-in differ in
exactly one case, RA + RB = 255 with CF = 1 (C4, and the switch of decision D10; log 2). -/
def Obligations.AddCarryReadingsDifferInOneCase : Prop :=
  ∀ (a b : Byte) (c : Bool),
    256 * (addCarryOut true a b c).toNat + (addResult a b c).toNat = a.toNat + b.toNat + c.toNat ∧
    (addCarryOut true a b c ≠ addCarryOut false a b c ↔ a.toNat + b.toNat = 255 ∧ c = true)

/-- SHL of a register into itself and ADD of a register to itself are the same (an identity of R128 and R134; it rests
on D9, D10's default and N28; log 3, log 2, log 14). -/
def Obligations.ShlSelfIsAddSelf : Prop :=
  ∀ (r : Reg) (s : State), exec (.shl r r) s = exec (.add r r) s

/-- SHR and SHL undo each other: they rotate the same nine bits, CF and the register, one place each way. The CF that
SHL leaves when bit 7 is 0 is decision D9 (log 3), and that its result is cut to 8 bits is the spec's inference N28
(log 14). -/
def Obligations.ShiftsThroughCarryUndoEachOther : Prop :=
  ∀ (ra rb : Reg) (s : State),
    (∃ t u : State, exec (.shr ra rb) s = .next t ∧ exec (.shl rb rb) t = .next u ∧
      u.reg rb = s.reg ra ∧ u.cf = s.cf) ∧
    (∃ t u : State, exec (.shl ra rb) s = .next t ∧ exec (.shr rb rb) t = .next u ∧
      u.reg rb = s.reg ra ∧ u.cf = s.cf)

/-- The other identities R134 lists: NOT twice restores the value, XOR of a register with itself clears it and sets ZF,
AND and OR of a register with itself leave it and set ZF from it. -/
def Obligations.LogicIdentities : Prop :=
  ∀ (r : Reg) (s : State),
    (∃ t u : State, exec (.not r r) s = .next t ∧ exec (.not r r) t = .next u ∧ u.reg r = s.reg r) ∧
    (∃ t : State, exec (.xor r r) s = .next t ∧ t.reg r = 0 ∧ t.zf = true) ∧
    (∀ i ∈ [Instr.and r r, Instr.or r r], ∃ t : State, exec i s = .next t ∧ t.reg r = s.reg r ∧
      (t.zf = true ↔ s.reg r = 0))

/-! ### Whole-machine rules, over every step -/

/-- Every flag after a step (the table of R15; its ADD and SHL rows rest on decisions D9 and D10, log 3 and log 2): who writes it, what,
and that every other instruction keeps it. -/
def Obligations.FlagsAfterAStep : Prop :=
  ∀ s t : State, step s = .next t →
    let a := s.reg s.nextRa
    let b := s.reg s.nextRb
    (t.cf = if s.nextOpcode = .add then decide (a.toNat + b.toNat > 255)
            else if s.nextOpcode = .shr then a.getLsbD 0
            else if s.nextOpcode = .shl then a.getLsbD 7
            else if s.nextOpcode = .clf then false else s.cf) ∧
    (t.af = if s.nextOpcode = .cmp then decide (a.toNat > b.toNat)
            else if s.nextOpcode = .clf then false else s.af) ∧
    (t.ef = if s.nextOpcode = .cmp then decide (a = b)
            else if s.nextOpcode = .clf then false else s.ef) ∧
    (t.zf = if s.nextOpcode ∈ [.add, .shr, .shl, .not, .and, .or, .xor] then decide (t.reg s.nextRb = 0)
            else if s.nextOpcode = .clf then false else s.zf)

/-- IAR after a step (the table under R12, which the spec marks as derived). -/
def Obligations.IarAfterAStep : Prop :=
  ∀ s t : State, step s = .next t →
    t.iar = if s.nextOpcode = .data then s.iar + 2
      else if s.nextOpcode = .jmpr then s.reg s.nextRb
      else if s.nextOpcode = .jmp then s.memRead (s.iar + 1)
      else if s.nextOpcode = .jcond then
        (if s.anyFlagSet s.nextMask then s.memRead (s.iar + 1) else s.iar + 2)
      else s.iar + 1

/-- MAR and IR after a step (the table under R13, which the spec marks as derived, and R14). -/
def Obligations.MarAndIrAfterAStep : Prop :=
  ∀ s t : State, step s = .next t →
    t.ir = s.memRead s.iar ∧
    t.mar = if s.nextOpcode = .load ∨ s.nextOpcode = .store then s.reg s.nextRa
      else if s.nextOpcode = .data ∨ s.nextOpcode = .jmp ∨ s.nextOpcode = .jcond then s.iar + 1
      else s.iar

/-- A step changes no general register but RB, and that only in the instructions that write one (the table under R11,
which the spec marks as derived); in particular STORE, CMP, CLF, PAD and the jumps write none. -/
def Obligations.OnlyRbIsWrittenByAStep : Prop :=
  ∀ s t : State, step s = .next t → ∀ r : Reg, t.reg r ≠ s.reg r →
    r = s.nextRb ∧ s.nextOpcode ∈ [.load, .data, .add, .shr, .shl, .not, .and, .or, .xor]

/-- Memory after a step: only STORE changes it, and only the cell at the address RA held, which gets the value RB held
(the table of R33 with R31). Memory is in canonical form. -/
def Obligations.OnlyStoreWritesMemory : Prop :=
  ∀ s t : State, Memory.wf s.mem = true → step s = .next t → ∀ a : Byte,
    t.memRead a = if s.nextOpcode = .store ∧ a = s.reg s.nextRa then s.reg s.nextRb else s.memRead a

/-- What MAR and IR hold before a step has no effect on it: a program cannot observe them (R13, R14, R20). -/
def Obligations.MarAndIrAreNotObservable : Prop :=
  ∀ (s : State) (x y : Byte), step { s with mar := x, ir := y } = step s

/-- The invariant: memory stays in canonical form, from every state that has it, whatever its registers and flags
hold, not only from reset. And a step never brings about that AF and EF are both 1. -/
def Obligations.StepKeepsTheInvariant : Prop :=
  ∀ s t : State, step s = .next t →
    (s.inv = true → t.inv = true) ∧ (s.compareFlagsExclusive = true → t.compareFlagsExclusive = true)

/-- The fixed points of the step, exactly: a state whose IR and MAR are already those of an execution of a JMP, a JMPR
or a taken JCOND to its own address. That a fixed point ends a run is decision D8 (log 16). -/
def Obligations.FixedPointsAreSelfJumps : Prop :=
  ∀ s : State, fixedPoint s ↔ s.ir = s.memRead s.iar ∧
    (s.nextOpcode = .jmp ∧ s.memRead (s.iar + 1) = s.iar ∧ s.mar = s.iar + 1 ∨
     s.nextOpcode = .jmpr ∧ s.reg s.nextRb = s.iar ∧ s.mar = s.iar ∨
     s.nextOpcode = .jcond ∧ s.anyFlagSet s.nextMask = true ∧ s.memRead (s.iar + 1) = s.iar ∧ s.mar = s.iar + 1)

/-- A JMP to its own address: the first execution leaves a fixed point, with MAR the operand byte's address and IR the
opcode byte (R96; that this ends a run is decision D8, log 16). -/
def Obligations.SelfJumpReachesAFixedPoint : Prop :=
  ∀ s : State, s.nextOpcode = .jmp → s.memRead (s.iar + 1) = s.iar →
    fixedPoint { s with mar := s.iar + 1, ir := s.memRead s.iar } ∧
    step s = .next { s with mar := s.iar + 1, ir := s.memRead s.iar }

/-! ### Reset and the host (10_state.md section 8, 70_reset_and_hazards.md) -/

/-- After reset every item is zero, memory included; that it covers memory is decision D4 (log 4). -/
def Obligations.ResetIsAllZero : Prop :=
  ∀ s : State, ∃ t : State, hostAct s .reset = .next t ∧ (∀ r, t.reg r = 0) ∧ t.iar = 0 ∧ t.mar = 0 ∧ t.ir = 0 ∧
    t.cf = false ∧ t.af = false ∧ t.ef = false ∧ t.zf = false ∧ ∀ a, t.memRead a = 0

/-- The invariant holds after reset, and AF and EF are not both 1. -/
def Obligations.InvariantHoldsAtReset : Prop :=
  State.reset.inv = true ∧ State.reset.compareFlagsExclusive = true

/-- `reset_registers` zeroes the eleven register-file items and leaves every byte of memory; its extent is decision D5
(log 5). -/
def Obligations.ResetRegistersKeepsMemory : Prop :=
  ∀ s : State, ∃ t : State, hostAct s .resetRegisters = .next t ∧ (∀ r, t.reg r = 0) ∧ t.iar = 0 ∧ t.mar = 0 ∧
    t.ir = 0 ∧ t.cf = false ∧ t.af = false ∧ t.ef = false ∧ t.zf = false ∧ ∀ a, t.memRead a = s.memRead a

/-- `load` puts byte i of the program into cell i, for at most 256 bytes, changes no register and no flag, and keeps
every cell above the program, which is decision D6 (log 6). Memory is in canonical form. -/
def Obligations.LoadCopiesTheProgram : Prop :=
  ∀ (s : State) (program : List Byte), Memory.wf s.mem = true →
    ∃ t : State, hostAct s (.load program) = .next t ∧ t = { s with mem := t.mem } ∧
      ∀ a : Byte, t.memRead a = (program[a.toNat]?).getD (s.memRead a)

/-- A machine that is loaded and not reset runs on from whatever its registers hold (R23, D16, log 13): the eleven
register-file items are arbitrary, `load` keeps them, and the next step fetches at the IAR they give, not at 0,
and is the step of the same registers and flags over the loaded memory. Memory is in canonical form, and what the
cells above the program hold is decision D6 (log 6). -/
def Obligations.LoadWithoutResetRunsFromArbitraryRegisters : Prop :=
  ∀ (r0 r1 r2 r3 iar mar ir : Byte) (cf af ef zf : Bool) (mem : Memory) (program : List Byte),
    Memory.wf mem = true →
    ∃ (m : Memory) (t : State), Memory.wf m = true ∧
      (∀ a : Byte, Memory.read m a = (program[a.toNat]?).getD (Memory.read mem a)) ∧
      hostRun ⟨r0, r1, r2, r3, iar, mar, ir, cf, af, ef, zf, mem⟩ [.load program, .step] = .next t ∧
      step ⟨r0, r1, r2, r3, iar, mar, ir, cf, af, ef, zf, m⟩ = .next t ∧
      t.ir = (program[iar.toNat]?).getD (Memory.read mem iar)

/-- Both boot sequences run byte 0 of the image first (R185; the second rests on decision D5, log 5). Memory is in
canonical form. -/
def Obligations.BootRunsByteZeroFirst : Prop :=
  ∀ (s : State) (b : Byte) (image : List Byte), Memory.wf s.mem = true →
    (∃ t : State, hostRun s [.reset, .load (b :: image), .step] = .next t ∧ t.ir = b) ∧
    (∃ t : State, hostRun s [.load (b :: image), .resetRegisters, .step] = .next t ∧ t.ir = b)

/-- Whatever the host does, in any order and for as long as it likes (R186), the machine never stops, and canonical
memory stays canonical: from every state of registers and flags, as a load without a reset leaves them arbitrary
(R23, D16, log 13). And no sequence brings about that AF and EF are both 1. -/
def Obligations.EveryHostSequenceStaysSafe : Prop :=
  ∀ (acts : List HostAction) (s : State),
    (s.inv = true → safeOutcome (hostRun s acts)) ∧
    ∃ t : State, hostRun s acts = .next t ∧ (s.compareFlagsExclusive = true → t.compareFlagsExclusive = true)

/-! ### The assembler (30_encoding.md sections 7 to 9) -/

/-- The mask of a conditional jump's letters: each of C, A, E, Z sets its bit, in any order and however often, and any
other letter leaves no mask (R74). -/
def Obligations.JumpLettersSetMaskBits : Prop :=
  (∀ (letters : Asm.Text) (mask : Nibble), Asm.lettersMask letters = some mask →
    (mask.getLsbD 3 = true ↔ 'C' ∈ letters) ∧ (mask.getLsbD 2 = true ↔ 'A' ∈ letters) ∧
    (mask.getLsbD 1 = true ↔ 'E' ∈ letters) ∧ (mask.getLsbD 0 = true ↔ 'Z' ∈ letters)) ∧
  (∀ letters : Asm.Text, Asm.lettersMask letters = none ↔ ∃ c ∈ letters, c ∉ ['C', 'A', 'E', 'Z'])

/-- A statement of two register operands names RA first and RB second, for every mnemonic of R71's table that has
two; that this order, which the source shows for ADD, holds for the others is decision D11 (log 18). -/
def Obligations.TwoRegisterStatementsNameRaFirst : Prop :=
  ∀ (p : AsmParams) (line k ka kb : Nat) (ra rb : Reg),
    ∀ c ∈ [(['L', 'O', 'A', 'D'], Instr.load ra rb), (['S', 'T', 'O', 'R', 'E'], .store ra rb),
        (['A', 'D', 'D'], .add ra rb), (['S', 'H', 'R'], .shr ra rb), (['S', 'H', 'L'], .shl ra rb),
        (['N', 'O', 'T'], .not ra rb), (['A', 'N', 'D'], .and ra rb), (['O', 'R'], .or ra rb),
        (['X', 'O', 'R'], .xor ra rb), (['C', 'M', 'P'], .cmp ra rb)],
      Asm.parseInstr p ⟨line, k, c.1⟩ [⟨line, ka, Asm.registerText ra⟩, ⟨line, kb, Asm.registerText rb⟩] =
        .ok (.code c.2 none)

/-- A compile that succeeds gives a legal image, and exactly 256 bytes when it was cut at the ceiling, whatever the
open parameters are (R79; where the cut falls is open, D18, log 17). -/
def Obligations.AssembledImageFitsMemory : Prop :=
  ∀ (p : AsmParams) (source : List Asm.Text) (out : Asm.AsmOutput), Asm.assemble p source = .ok out →
    imageWf out.image = true ∧ ((∃ line, .truncated line ∈ out.warnings) → out.image.length = 256)

/-- A source that reaches the ceiling is cut and not refused: it compiles exactly when each label it references has a
definition on some line, be it after the cut (R77, R79), and then to 256 bytes with the truncation warning. That
a definition after the cut counts is the model's reading of R79's "never an error" (log 21). -/
def Obligations.SourceAtTheCeilingIsCutNotRefused : Prop :=
  ∀ (p : AsmParams) (source : List Asm.Text) (e : Asm.Emitted), Asm.emitLines p source 1 .start = .ok e →
    (∃ line, .truncated line ∈ e.warnings) →
    ((∃ out, Asm.assemble p source = .ok out) ↔ ∀ r ∈ e.refs, ∃ (k : Nat) (text name : Asm.Text),
      source[k]? = some text ∧ Asm.lineLabel p (k + 1) text = some name ∧ Asm.nameKey p name = Asm.nameKey p r.name) ∧
    ∀ out, Asm.assemble p source = .ok out →
      out.image.length = 256 ∧ ∃ line, .truncated line ∈ out.warnings

/-- Resolution succeeds exactly when every referenced label is defined; then each reference's byte is its label's
value and every other byte is as emitted (R77). The patch locations are distinct and inside the output. -/
def Obligations.ResolutionPatchesEveryReference : Prop :=
  ∀ (p : AsmParams) (defs : List Asm.LabelDef) (refs : List Asm.PatchRequest) (bytes : List Byte),
    (refs.map (·.offset)).Nodup → (∀ r ∈ refs, r.offset < bytes.length) →
    ((∃ out, Asm.resolve p defs refs bytes = .ok out) ↔ ∀ r ∈ refs, (Asm.findDef p defs r.name).isSome) ∧
    ∀ out, Asm.resolve p defs refs bytes = .ok out →
      (∀ r ∈ refs, ∀ d, Asm.findDef p defs r.name = some d → out[r.offset]? = some (Asm.labelByte p d)) ∧
      (∀ k, (∀ r ∈ refs, r.offset ≠ k) → out[k]? = bytes[k]?)
end

