-- ==== Sys2Proof/Laws/Assembler.lean ====
section
/-! SUPPORT. The laws of the assembler's parts: where a word stands, which lines define a label, and what resolution
does to one reference. -/

namespace Sys2Proof.Asm

/-! ### Words -/

theorem mem_flush {line col : Nat} {cur : Text} {w : Word} (h : w ∈ flush line col cur) :
    w = ⟨line, col - cur.length, cur.reverse⟩ := by
  unfold flush at h
  split at h
  · simp at h
  · simpa using h

/-- A word stands at its column: the line `done ++ cur.reverse ++ cs` is being split, `cs` being left. -/
theorem splitWords_at_col {line : Nat} (cs : Text) : ∀ (done cur : Text) (w : Word),
    w ∈ splitWords line (done.length + cur.length) cs cur →
    w.line = line ∧ ((done ++ cur.reverse ++ cs).drop w.col).take w.text.length = w.text := by
  induction cs with
  | nil =>
    intro done cur w h
    obtain rfl := mem_flush (show w ∈ flush line _ cur by simpa [splitWords] using h)
    simp
  | cons c cs ih =>
    intro done cur w h
    unfold splitWords at h
    split at h
    · rcases List.mem_append.1 h with h | h
      · obtain rfl := mem_flush h
        simp
      · have := ih (done ++ cur.reverse ++ [c]) [] w (by simpa [Nat.add_assoc] using h)
        simpa using this
    · have := ih done (c :: cur) w (by simpa [Nat.add_assoc] using h)
      simpa using this

/-- Every word of a line stands in it at the column the word holds (R80's caret). -/
theorem words_at_col {p : AsmParams} {line : Nat} {text : Text} {w : Word} (h : w ∈ words p line text) :
    w.line = line ∧ ((text.takeWhile (· != p.commentChar)).drop w.col).take w.text.length = w.text := by
  simpa using splitWords_at_col _ [] [] w (by simpa [words] using h)

/-! ### Lines -/

/-- A word is a label definition only if it ends in `:` (R75). -/
theorem labelDefName_getLast {p : AsmParams} {text name : Text} (h : labelDefName p text = some name) :
    text.getLast? = some ':' := by
  unfold labelDefName at h
  split at h
  · rename_i hc; exact hc.2.2.1
  · cases h

/-- The operands of an instruction never make a label definition. -/
theorem parseInstr_ne_labelDef (p : AsmParams) (w : Word) (ops : List Word) (name : Text) :
    parseInstr p w ops ≠ .ok (.labelDef name) := by
  have raRb : ∀ make ops, parseRaRb p w make ops ≠ .ok (.labelDef name) := by
    intro make ops h
    unfold parseRaRb at h
    split at h
    · rename_i wa wb
      cases ha : parseRegister p wa <;> cases hb : parseRegister p wb <;> simp [ha, hb, bind, Except.bind, pure, Except.pure] at h
    · cases h
  have jump : ∀ make ops, parseJump p w make ops ≠ .ok (.labelDef name) := by
    intro make ops h
    unfold parseJump at h
    split at h
    · rename_i wa
      cases ha : parseAddress p wa <;> simp [ha, bind, Except.bind, pure, Except.pure] at h
    · cases h
  have bare : ∀ i ops, parseBare w i ops ≠ .ok (.labelDef name) := by
    intro i ops h
    unfold parseBare at h
    split at h <;> simp at h
  have letters : ∀ letters ops, parseJletters p w letters ops ≠ .ok (.labelDef name) := by
    intro letters ops h
    unfold parseJletters at h
    split at h
    · cases h
    · split at h
      · exact jump _ _ h
      · cases h
  intro h
  unfold parseInstr at h
  dsimp only at h
  generalize mnemonic (w.text.map Char.toUpper) = m at h
  rcases m with _ | o
  · dsimp only at h
    split at h
    · exact letters _ _ h
    · cases h
  · cases o <;> dsimp only at h
    case data =>
      rcases ops with _ | ⟨wr, _ | ⟨wv, _ | _⟩⟩ <;> dsimp only at h
      case cons.cons.nil =>
        cases hr : parseRegister p wr <;> cases hv : parseValue p wv <;>
          simp [hr, hv, bind, Except.bind, pure, Except.pure] at h
      all_goals cases h
    case jmpr =>
      rcases ops with _ | ⟨wr, _ | _⟩ <;> dsimp only at h
      case cons.nil => cases hr : parseRegister p wr <;> simp [hr, bind, Except.bind, pure, Except.pure] at h
      all_goals cases h
    case jcond => cases h
    case pad =>
      split at h
      · exact bare _ _ h
      · cases h
    all_goals first
      | exact raRb _ _ h
      | exact jump _ _ h
      | exact bare _ _ h

/-- A line is a label definition exactly when `lineLabel` finds one (R75). -/
theorem parseLine_labelDef {p : AsmParams} {line : Nat} {text name : Text} :
    parseLine p line text = .ok (some (.labelDef name)) ↔ lineLabel p line text = some name := by
  unfold parseLine lineLabel
  rcases words p line text with _ | ⟨w, ops⟩
  · simp
  · by_cases hc : w.text.getLast? = some ':'
    · cases hn : labelDefName p w.text <;> cases ops <;> simp [hc, hn]
    · have hn : labelDefName p w.text ≠ some name := fun h => hc (labelDefName_getLast h)
      cases hi : parseInstr p w ops with
      | error _ => cases ops <;> simp [hc, hi, hn, Except.map]
      | ok st =>
        have hst : st ≠ .labelDef name := fun h => parseInstr_ne_labelDef p w ops name (by rw [hi, h])
        cases ops <;> simp [hc, hi, hn, hst, Except.map]

/-! ### Definitions and resolution -/

/-- A name has a definition exactly when some definition has the same name (R77). -/
theorem findDef_isSome {p : AsmParams} {defs : List LabelDef} {name : Text} :
    (findDef p defs name).isSome ↔ ∃ d ∈ defs, nameKey p d.name = nameKey p name := by
  simp [findDef]

/-- The definitions after the cut are those of the lines that hold one. -/
theorem mem_lateLabels {p : AsmParams} {d : LabelDef} : ∀ {source : List Text} {line : Nat},
    d ∈ lateLabels p source line ↔ d.offset = Config.memorySize ∧
      ∃ k text, source[k]? = some text ∧ d.line = line + k ∧ lineLabel p (line + k) text = some d.name := by
  intro source
  induction source with
  | nil => simp [lateLabels]
  | cons t ts ih =>
    intro line
    simp only [lateLabels, List.mem_append, ih, Option.mem_toList, Option.map_eq_some_iff]
    constructor
    · rintro (⟨n, hn, rfl⟩ | ⟨ho, k, text, hk, hl, hn⟩)
      · exact ⟨rfl, 0, t, by simp, rfl, hn⟩
      · exact ⟨ho, k + 1, text, by simpa using hk, by omega, by rwa [show line + (k + 1) = line + 1 + k by omega]⟩
    · rintro ⟨ho, k, text, hk, hl, hn⟩
      cases k with
      | zero =>
        simp only [List.getElem?_cons_zero, Option.some.injEq] at hk
        subst hk
        refine .inl ⟨d.name, hn, ?_⟩
        cases d
        simp_all
      | succ k =>
        exact .inr ⟨ho, k, text, by simpa using hk, by omega, by rwa [show line + 1 + k = line + (k + 1) by omega]⟩

/-- A value below 256 is the byte itself (R77). -/
theorem labelByte_of_lt {p : AsmParams} {d : LabelDef} (h : d.offset < Config.memorySize) :
    labelByte p d = BitVec.ofNat 8 d.offset := if_pos h

/-- Resolution patches one reference and goes on (R77). -/
theorem resolve_cons {p : AsmParams} {defs : List LabelDef} {r : PatchRequest} {d : LabelDef}
    (h : findDef p defs r.name = some d) (rest : List PatchRequest) (bytes : List Byte) :
    resolve p defs (r :: rest) bytes = resolve p defs rest (bytes.set r.offset (labelByte p d)) := by
  simp [resolve, h]

/-- Resolution keeps the length. -/
theorem resolve_length {p : AsmParams} {defs : List LabelDef} : ∀ {refs : List PatchRequest} {bytes out : List Byte},
    resolve p defs refs bytes = .ok out → out.length = bytes.length := by
  intro refs
  induction refs with
  | nil => intro bytes out h; cases h; rfl
  | cons r rest ih =>
    intro bytes out h
    cases hd : findDef p defs r.name with
    | none => simp [resolve, hd] at h
    | some d => rw [resolve_cons hd] at h; simpa using ih h

end Sys2Proof.Asm
end

