-- ==== Sys2Proof/Laws/Decode.lean ====
section
/-! SUPPORT. The small lemmas of the decoder and the encoder: the opcode map is a bijection, the register
indices too, and a field read from an opcode byte put together from fields is that field. -/

namespace Sys2Proof

@[simp] theorem opcodeMap_opcodeNumber (o : Opcode) : opcodeMap (opcodeNumber o) = o := by
  cases o <;> rfl

@[simp] theorem opcodeNumber_opcodeMap (n : Nibble) : opcodeNumber (opcodeMap n) = n := by
  revert n; decide

@[simp] theorem regOfBits_regBits (r : Reg) : regOfBits (regBits r) = r := by
  cases r <;> rfl

@[simp] theorem regBits_regOfBits (n : BitVec 2) : regBits (regOfBits n) = n := by
  revert n; decide

/-- The opcode field of an opcode byte put together from its nibbles (R50). -/
@[simp] theorem opcodeField_byteOf (n l : Nibble) : opcodeField (byteOf n l) = n := by
  revert n l; decide

/-- The low nibble of such a byte (R55). -/
@[simp] theorem maskField_byteOf (n l : Nibble) : maskField (byteOf n l) = l := by
  revert n l; decide

/-- An opcode byte is its two nibbles (R50). -/
@[simp] theorem byteOf_fields (b : Byte) : byteOf (opcodeField b) (maskField b) = b := by
  revert b; decide

theorem raBits_byteOf (n : Nibble) (a b : BitVec 2) : (byteOf n (nibbleOf a b)).extractLsb' 2 2 = a := by
  revert n a b; decide

theorem rbBits_byteOf (n : Nibble) (a b : BitVec 2) : (byteOf n (nibbleOf a b)).extractLsb' 0 2 = b := by
  revert n a b; decide

/-- `RA` of an opcode byte put together from its fields (R54). -/
@[simp] theorem raField_byteOf (n : Nibble) (ra : Reg) (b : BitVec 2) :
    raField (byteOf n (nibbleOf (regBits ra) b)) = ra := by
  rw [raField, raBits_byteOf, regOfBits_regBits]

/-- `RB` of an opcode byte put together from its fields, whatever stands in the two bits above it (R54, R57). -/
@[simp] theorem rbField_byteOf (n : Nibble) (a : BitVec 2) (rb : Reg) :
    rbField (byteOf n (nibbleOf a (regBits rb))) = rb := by
  rw [rbField, rbBits_byteOf, regOfBits_regBits]

/-- Decoding an instruction that has no operand byte takes one byte (R51). -/
theorem decodeWith_short {m : Nibble → Opcode} {b : Byte} (rest : List Byte)
    (h : (m (opcodeField b)).format.hasOperandByte = false) :
    decodeWith m (b :: rest) = .instr (decodeBytesWith m b 0) rest := by
  simp [decodeWith, h]

/-- Decoding an instruction that has an operand byte takes two (R51). -/
theorem decodeWith_long {m : Nibble → Opcode} {b : Byte} (x : Byte) (rest : List Byte)
    (h : (m (opcodeField b)).format.hasOperandByte = true) :
    decodeWith m (b :: x :: rest) = .instr (decodeBytesWith m b x) rest := by
  simp [decodeWith, h]

/-- The opcode of a decoded instruction is the one its opcode byte's high nibble selects (R50). -/
@[simp] theorem opcode_decodeBytesWith (m : Nibble → Opcode) (b x : Byte) :
    (decodeBytesWith m b x).opcode = m (opcodeField b) := by
  unfold decodeBytesWith
  split <;> simp_all [Instr.opcode]

/-- The byte after the opcode byte of an instruction without an operand byte plays no part (R51). -/
theorem decodeBytesWith_short {m : Nibble → Opcode} {b : Byte}
    (h : (m (opcodeField b)).format.hasOperandByte = false) (x y : Byte) :
    decodeBytesWith m b x = decodeBytesWith m b y := by
  unfold decodeBytesWith
  split <;> simp_all [Opcode.format, Format.hasOperandByte]

end Sys2Proof
end

