-- ==== Sys2Proof/Laws/Memory.lean ====
section
/-! SUPPORT. The laws of memory: reads after writes, every operation keeps the canonical form, and two
memories in canonical form that read alike are one list. -/

namespace Sys2Proof.Machine

@[simp] theorem Memory.lookup_nil (a : Nat) : Memory.lookup [] a = Memory.blank := rfl

theorem Memory.lookup_pair (k : Nat) (v : Byte) (rest : Memory) (a : Nat) :
    Memory.lookup ((k, v) :: rest) a = if k = a then v else Memory.lookup rest a := rfl

/-! ### The canonical form -/

theorem Memory.wfFrom_pair (low k : Nat) (v : Byte) (rest : Memory) :
    Memory.wfFrom low ((k, v) :: rest) = true ↔
      low ≤ k ∧ k < Config.memorySize ∧ v ≠ Memory.blank ∧ Memory.wfFrom (k + 1) rest = true := by
  simp [Memory.wfFrom, and_assoc]

theorem Memory.wfFrom_mono {low low' : Nat} {m : Memory} (h : Memory.wfFrom low m = true) (hl : low' ≤ low) :
    Memory.wfFrom low' m = true := by
  cases m with
  | nil => rfl
  | cons c rest =>
    obtain ⟨k, v⟩ := c
    rw [Memory.wfFrom_pair] at h ⊢
    exact ⟨hl.trans h.1, h.2⟩

/-- No cell below the bound is listed. -/
theorem Memory.lookup_below {low a : Nat} {m : Memory} (h : Memory.wfFrom low m = true) (ha : a < low) :
    Memory.lookup m a = Memory.blank := by
  induction m generalizing low with
  | nil => rfl
  | cons c rest ih =>
    obtain ⟨k, v⟩ := c
    rw [Memory.wfFrom_pair] at h
    rw [Memory.lookup_pair, if_neg (by omega)]
    exact ih h.2.2.2 (by omega)

theorem Memory.wfFrom_cons {low a : Nat} {v : Byte} {rest : Memory} (hl : low ≤ a) (ha : a < Config.memorySize)
    (h : Memory.wfFrom (a + 1) rest = true) : Memory.wfFrom low (Memory.cons a v rest) = true := by
  unfold Memory.cons
  split
  · exact Memory.wfFrom_mono h (by omega)
  · rename_i hv
    exact (Memory.wfFrom_pair ..).2 ⟨hl, ha, hv, h⟩

theorem Memory.wfFrom_put {low a : Nat} {v : Byte} {m : Memory} (h : Memory.wfFrom low m = true) (hl : low ≤ a)
    (ha : a < Config.memorySize) : Memory.wfFrom low (Memory.put m a v) = true := by
  induction m generalizing low with
  | nil => exact Memory.wfFrom_cons hl ha rfl
  | cons c rest ih =>
    obtain ⟨k, w⟩ := c
    have hk := (Memory.wfFrom_pair ..).1 h
    simp only [Memory.put]
    split
    · rename_i hlt
      exact Memory.wfFrom_cons hl ha ((Memory.wfFrom_pair ..).2 ⟨hlt, hk.2⟩)
    · split
      · rename_i heq
        subst heq
        exact Memory.wfFrom_cons hl ha hk.2.2.2
      · exact (Memory.wfFrom_pair ..).2 ⟨hk.1, hk.2.1, hk.2.2.1, ih hk.2.2.2 (by omega)⟩

/-- A write keeps the canonical form. -/
theorem Memory.wf_write {m : Memory} (h : Memory.wf m = true) (addr v : Byte) :
    Memory.wf (Memory.write m addr v) = true :=
  Memory.wfFrom_put h (Nat.zero_le _) addr.isLt

/-! ### Reads after writes -/

theorem Memory.lookup_cons_same {a : Nat} {v : Byte} {rest : Memory} (h : Memory.wfFrom (a + 1) rest = true) :
    Memory.lookup (Memory.cons a v rest) a = v := by
  unfold Memory.cons
  split
  · rename_i hv
    rw [Memory.lookup_below h (by omega), hv]
  · simp [Memory.lookup_pair]

theorem Memory.lookup_cons_other {a b : Nat} {v : Byte} {rest : Memory} (h : b ≠ a) :
    Memory.lookup (Memory.cons a v rest) b = Memory.lookup rest b := by
  unfold Memory.cons
  split
  · rfl
  · rw [Memory.lookup_pair, if_neg (by omega)]

theorem Memory.lookup_put_same {low a : Nat} {v : Byte} {m : Memory} (h : Memory.wfFrom low m = true) :
    Memory.lookup (Memory.put m a v) a = v := by
  induction m generalizing low with
  | nil => exact Memory.lookup_cons_same rfl
  | cons c rest ih =>
    obtain ⟨k, w⟩ := c
    have hk := (Memory.wfFrom_pair ..).1 h
    simp only [Memory.put]
    split
    · rename_i hlt
      exact Memory.lookup_cons_same ((Memory.wfFrom_pair ..).2 ⟨hlt, hk.2⟩)
    · split
      · rename_i heq
        exact Memory.lookup_cons_same (by rw [heq]; exact hk.2.2.2)
      · rw [Memory.lookup_pair, if_neg (by omega)]
        exact ih hk.2.2.2

/-- A write leaves every other cell alone; this needs no canonical form. -/
theorem Memory.lookup_put_other {a b : Nat} {v : Byte} {m : Memory} (h : b ≠ a) :
    Memory.lookup (Memory.put m a v) b = Memory.lookup m b := by
  induction m with
  | nil => exact Memory.lookup_cons_other h
  | cons c rest ih =>
    obtain ⟨k, w⟩ := c
    simp only [Memory.put]
    split
    · exact Memory.lookup_cons_other h
    · split
      · rename_i heq
        rw [Memory.lookup_cons_other h, Memory.lookup_pair, if_neg (by omega)]
      · rw [Memory.lookup_pair, Memory.lookup_pair, ih]

/-! ### Canonical memories are determined by their reads -/

theorem Memory.wfFrom_ext {low : Nat} {m m' : Memory} (h : Memory.wfFrom low m = true)
    (h' : Memory.wfFrom low m' = true) (hr : ∀ a, Memory.lookup m a = Memory.lookup m' a) : m = m' := by
  induction m generalizing low m' with
  | nil =>
    cases m' with
    | nil => rfl
    | cons c rest =>
      obtain ⟨k, v⟩ := c
      have hk := (Memory.wfFrom_pair ..).1 h'
      have := hr k
      rw [Memory.lookup_pair, if_pos rfl] at this
      exact absurd this.symm hk.2.2.1
  | cons c rest ih =>
    obtain ⟨k, v⟩ := c
    have hk := (Memory.wfFrom_pair ..).1 h
    cases m' with
    | nil =>
      have := hr k
      rw [Memory.lookup_pair, if_pos rfl] at this
      exact absurd this hk.2.2.1
    | cons c' rest' =>
      obtain ⟨k', v'⟩ := c'
      have hk' := (Memory.wfFrom_pair ..).1 h'
      have hkk : k = k' := by
        rcases Nat.lt_trichotomy k k' with hlt | heq | hgt
        · have := hr k
          rw [Memory.lookup_pair, if_pos rfl,
            Memory.lookup_below ((Memory.wfFrom_pair ..).2 ⟨Nat.le_refl _, hk'.2⟩) hlt] at this
          exact absurd this hk.2.2.1
        · exact heq
        · have := hr k'
          rw [Memory.lookup_pair (k := k') (v := v'), if_pos rfl,
            Memory.lookup_below ((Memory.wfFrom_pair ..).2 ⟨Nat.le_refl _, hk.2⟩) hgt] at this
          exact absurd this.symm hk'.2.2.1
      subst hkk
      have hv : v = v' := by simpa [Memory.lookup_pair] using hr k
      subst hv
      have hrest : rest = rest' := by
        refine ih hk.2.2.2 hk'.2.2.2 (fun a => ?_)
        by_cases ha : a < k + 1
        · rw [Memory.lookup_below hk.2.2.2 ha, Memory.lookup_below hk'.2.2.2 ha]
        · have := hr a
          rwa [Memory.lookup_pair, Memory.lookup_pair, if_neg (by omega), if_neg (by omega)] at this
      rw [hrest]

/-- Nothing is listed outside the 256 cells. -/
theorem Memory.lookup_outside {low a : Nat} {m : Memory} (h : Memory.wfFrom low m = true)
    (ha : Config.memorySize ≤ a) : Memory.lookup m a = Memory.blank := by
  induction m generalizing low with
  | nil => rfl
  | cons c rest ih =>
    obtain ⟨k, v⟩ := c
    have hk := (Memory.wfFrom_pair ..).1 h
    rw [Memory.lookup_pair, if_neg (by omega)]
    exact ih hk.2.2.2

end Sys2Proof.Machine
end

