-- ==== Sys2Proof/Laws/State.lean ====
section
/-! SUPPORT. One lemma per field per update of the state, true by unfolding, so that no later proof
unfolds a record update. -/

namespace Sys2Proof.Machine

/-! ### `State.setReg` -/

@[simp] theorem State.setReg_r0 (s : State) (r : Reg) (v : Byte) : (s.setReg r v).r0 = if r = .r0 then v else s.r0 := by cases r <;> rfl
@[simp] theorem State.setReg_r1 (s : State) (r : Reg) (v : Byte) : (s.setReg r v).r1 = if r = .r1 then v else s.r1 := by cases r <;> rfl
@[simp] theorem State.setReg_r2 (s : State) (r : Reg) (v : Byte) : (s.setReg r v).r2 = if r = .r2 then v else s.r2 := by cases r <;> rfl
@[simp] theorem State.setReg_r3 (s : State) (r : Reg) (v : Byte) : (s.setReg r v).r3 = if r = .r3 then v else s.r3 := by cases r <;> rfl
@[simp] theorem State.setReg_iar (s : State) (r : Reg) (v : Byte) : (s.setReg r v).iar = s.iar := by cases r <;> rfl
@[simp] theorem State.setReg_mar (s : State) (r : Reg) (v : Byte) : (s.setReg r v).mar = s.mar := by cases r <;> rfl
@[simp] theorem State.setReg_ir (s : State) (r : Reg) (v : Byte) : (s.setReg r v).ir = s.ir := by cases r <;> rfl
@[simp] theorem State.setReg_cf (s : State) (r : Reg) (v : Byte) : (s.setReg r v).cf = s.cf := by cases r <;> rfl
@[simp] theorem State.setReg_af (s : State) (r : Reg) (v : Byte) : (s.setReg r v).af = s.af := by cases r <;> rfl
@[simp] theorem State.setReg_ef (s : State) (r : Reg) (v : Byte) : (s.setReg r v).ef = s.ef := by cases r <;> rfl
@[simp] theorem State.setReg_zf (s : State) (r : Reg) (v : Byte) : (s.setReg r v).zf = s.zf := by cases r <;> rfl
@[simp] theorem State.setReg_mem (s : State) (r : Reg) (v : Byte) : (s.setReg r v).mem = s.mem := by cases r <;> rfl
theorem State.setReg_reg (s : State) (r : Reg) (v : Byte) (q : Reg) : (s.setReg r v).reg q = if q = r then v else s.reg q := by cases r <;> cases q <;> rfl
@[simp] theorem State.setReg_reg_same (s : State) (r : Reg) (v : Byte) : (s.setReg r v).reg r = v := by cases r <;> rfl
@[simp] theorem State.setReg_reg_other (s : State) (r q : Reg) (v : Byte) (h : q ≠ r) : (s.setReg r v).reg q = s.reg q := by rw [State.setReg_reg, if_neg h]
@[simp] theorem State.setReg_memRead (s : State) (r : Reg) (v a : Byte) : (s.setReg r v).memRead a = s.memRead a := by cases r <;> rfl
@[simp] theorem State.setReg_fl (s : State) (r : Reg) (v : Byte) : (s.setReg r v).fl = s.fl := by cases r <;> rfl

/-! ### `State.setIar` -/

@[simp] theorem State.setIar_r0 (s : State) (v : Byte) : (s.setIar v).r0 = s.r0 := rfl
@[simp] theorem State.setIar_r1 (s : State) (v : Byte) : (s.setIar v).r1 = s.r1 := rfl
@[simp] theorem State.setIar_r2 (s : State) (v : Byte) : (s.setIar v).r2 = s.r2 := rfl
@[simp] theorem State.setIar_r3 (s : State) (v : Byte) : (s.setIar v).r3 = s.r3 := rfl
@[simp] theorem State.setIar_iar (s : State) (v : Byte) : (s.setIar v).iar = v := rfl
@[simp] theorem State.setIar_mar (s : State) (v : Byte) : (s.setIar v).mar = s.mar := rfl
@[simp] theorem State.setIar_ir (s : State) (v : Byte) : (s.setIar v).ir = s.ir := rfl
@[simp] theorem State.setIar_cf (s : State) (v : Byte) : (s.setIar v).cf = s.cf := rfl
@[simp] theorem State.setIar_af (s : State) (v : Byte) : (s.setIar v).af = s.af := rfl
@[simp] theorem State.setIar_ef (s : State) (v : Byte) : (s.setIar v).ef = s.ef := rfl
@[simp] theorem State.setIar_zf (s : State) (v : Byte) : (s.setIar v).zf = s.zf := rfl
@[simp] theorem State.setIar_mem (s : State) (v : Byte) : (s.setIar v).mem = s.mem := rfl
@[simp] theorem State.setIar_reg (s : State) (v : Byte) (r : Reg) : (s.setIar v).reg r = s.reg r := by cases r <;> rfl
@[simp] theorem State.setIar_memRead (s : State) (v : Byte) (a : Byte) : (s.setIar v).memRead a = s.memRead a := rfl
@[simp] theorem State.setIar_fl (s : State) (v : Byte) : (s.setIar v).fl = s.fl := rfl

/-! ### `State.setMar` -/

@[simp] theorem State.setMar_r0 (s : State) (v : Byte) : (s.setMar v).r0 = s.r0 := rfl
@[simp] theorem State.setMar_r1 (s : State) (v : Byte) : (s.setMar v).r1 = s.r1 := rfl
@[simp] theorem State.setMar_r2 (s : State) (v : Byte) : (s.setMar v).r2 = s.r2 := rfl
@[simp] theorem State.setMar_r3 (s : State) (v : Byte) : (s.setMar v).r3 = s.r3 := rfl
@[simp] theorem State.setMar_iar (s : State) (v : Byte) : (s.setMar v).iar = s.iar := rfl
@[simp] theorem State.setMar_mar (s : State) (v : Byte) : (s.setMar v).mar = v := rfl
@[simp] theorem State.setMar_ir (s : State) (v : Byte) : (s.setMar v).ir = s.ir := rfl
@[simp] theorem State.setMar_cf (s : State) (v : Byte) : (s.setMar v).cf = s.cf := rfl
@[simp] theorem State.setMar_af (s : State) (v : Byte) : (s.setMar v).af = s.af := rfl
@[simp] theorem State.setMar_ef (s : State) (v : Byte) : (s.setMar v).ef = s.ef := rfl
@[simp] theorem State.setMar_zf (s : State) (v : Byte) : (s.setMar v).zf = s.zf := rfl
@[simp] theorem State.setMar_mem (s : State) (v : Byte) : (s.setMar v).mem = s.mem := rfl
@[simp] theorem State.setMar_reg (s : State) (v : Byte) (r : Reg) : (s.setMar v).reg r = s.reg r := by cases r <;> rfl
@[simp] theorem State.setMar_memRead (s : State) (v : Byte) (a : Byte) : (s.setMar v).memRead a = s.memRead a := rfl
@[simp] theorem State.setMar_fl (s : State) (v : Byte) : (s.setMar v).fl = s.fl := rfl

/-! ### `State.setIr` -/

@[simp] theorem State.setIr_r0 (s : State) (v : Byte) : (s.setIr v).r0 = s.r0 := rfl
@[simp] theorem State.setIr_r1 (s : State) (v : Byte) : (s.setIr v).r1 = s.r1 := rfl
@[simp] theorem State.setIr_r2 (s : State) (v : Byte) : (s.setIr v).r2 = s.r2 := rfl
@[simp] theorem State.setIr_r3 (s : State) (v : Byte) : (s.setIr v).r3 = s.r3 := rfl
@[simp] theorem State.setIr_iar (s : State) (v : Byte) : (s.setIr v).iar = s.iar := rfl
@[simp] theorem State.setIr_mar (s : State) (v : Byte) : (s.setIr v).mar = s.mar := rfl
@[simp] theorem State.setIr_ir (s : State) (v : Byte) : (s.setIr v).ir = v := rfl
@[simp] theorem State.setIr_cf (s : State) (v : Byte) : (s.setIr v).cf = s.cf := rfl
@[simp] theorem State.setIr_af (s : State) (v : Byte) : (s.setIr v).af = s.af := rfl
@[simp] theorem State.setIr_ef (s : State) (v : Byte) : (s.setIr v).ef = s.ef := rfl
@[simp] theorem State.setIr_zf (s : State) (v : Byte) : (s.setIr v).zf = s.zf := rfl
@[simp] theorem State.setIr_mem (s : State) (v : Byte) : (s.setIr v).mem = s.mem := rfl
@[simp] theorem State.setIr_reg (s : State) (v : Byte) (r : Reg) : (s.setIr v).reg r = s.reg r := by cases r <;> rfl
@[simp] theorem State.setIr_memRead (s : State) (v : Byte) (a : Byte) : (s.setIr v).memRead a = s.memRead a := rfl
@[simp] theorem State.setIr_fl (s : State) (v : Byte) : (s.setIr v).fl = s.fl := rfl

/-! ### `State.setCf` -/

@[simp] theorem State.setCf_r0 (s : State) (v : Bool) : (s.setCf v).r0 = s.r0 := rfl
@[simp] theorem State.setCf_r1 (s : State) (v : Bool) : (s.setCf v).r1 = s.r1 := rfl
@[simp] theorem State.setCf_r2 (s : State) (v : Bool) : (s.setCf v).r2 = s.r2 := rfl
@[simp] theorem State.setCf_r3 (s : State) (v : Bool) : (s.setCf v).r3 = s.r3 := rfl
@[simp] theorem State.setCf_iar (s : State) (v : Bool) : (s.setCf v).iar = s.iar := rfl
@[simp] theorem State.setCf_mar (s : State) (v : Bool) : (s.setCf v).mar = s.mar := rfl
@[simp] theorem State.setCf_ir (s : State) (v : Bool) : (s.setCf v).ir = s.ir := rfl
@[simp] theorem State.setCf_cf (s : State) (v : Bool) : (s.setCf v).cf = v := rfl
@[simp] theorem State.setCf_af (s : State) (v : Bool) : (s.setCf v).af = s.af := rfl
@[simp] theorem State.setCf_ef (s : State) (v : Bool) : (s.setCf v).ef = s.ef := rfl
@[simp] theorem State.setCf_zf (s : State) (v : Bool) : (s.setCf v).zf = s.zf := rfl
@[simp] theorem State.setCf_mem (s : State) (v : Bool) : (s.setCf v).mem = s.mem := rfl
@[simp] theorem State.setCf_reg (s : State) (v : Bool) (r : Reg) : (s.setCf v).reg r = s.reg r := by cases r <;> rfl
@[simp] theorem State.setCf_memRead (s : State) (v : Bool) (a : Byte) : (s.setCf v).memRead a = s.memRead a := rfl

/-! ### `State.setAf` -/

@[simp] theorem State.setAf_r0 (s : State) (v : Bool) : (s.setAf v).r0 = s.r0 := rfl
@[simp] theorem State.setAf_r1 (s : State) (v : Bool) : (s.setAf v).r1 = s.r1 := rfl
@[simp] theorem State.setAf_r2 (s : State) (v : Bool) : (s.setAf v).r2 = s.r2 := rfl
@[simp] theorem State.setAf_r3 (s : State) (v : Bool) : (s.setAf v).r3 = s.r3 := rfl
@[simp] theorem State.setAf_iar (s : State) (v : Bool) : (s.setAf v).iar = s.iar := rfl
@[simp] theorem State.setAf_mar (s : State) (v : Bool) : (s.setAf v).mar = s.mar := rfl
@[simp] theorem State.setAf_ir (s : State) (v : Bool) : (s.setAf v).ir = s.ir := rfl
@[simp] theorem State.setAf_cf (s : State) (v : Bool) : (s.setAf v).cf = s.cf := rfl
@[simp] theorem State.setAf_af (s : State) (v : Bool) : (s.setAf v).af = v := rfl
@[simp] theorem State.setAf_ef (s : State) (v : Bool) : (s.setAf v).ef = s.ef := rfl
@[simp] theorem State.setAf_zf (s : State) (v : Bool) : (s.setAf v).zf = s.zf := rfl
@[simp] theorem State.setAf_mem (s : State) (v : Bool) : (s.setAf v).mem = s.mem := rfl
@[simp] theorem State.setAf_reg (s : State) (v : Bool) (r : Reg) : (s.setAf v).reg r = s.reg r := by cases r <;> rfl
@[simp] theorem State.setAf_memRead (s : State) (v : Bool) (a : Byte) : (s.setAf v).memRead a = s.memRead a := rfl

/-! ### `State.setEf` -/

@[simp] theorem State.setEf_r0 (s : State) (v : Bool) : (s.setEf v).r0 = s.r0 := rfl
@[simp] theorem State.setEf_r1 (s : State) (v : Bool) : (s.setEf v).r1 = s.r1 := rfl
@[simp] theorem State.setEf_r2 (s : State) (v : Bool) : (s.setEf v).r2 = s.r2 := rfl
@[simp] theorem State.setEf_r3 (s : State) (v : Bool) : (s.setEf v).r3 = s.r3 := rfl
@[simp] theorem State.setEf_iar (s : State) (v : Bool) : (s.setEf v).iar = s.iar := rfl
@[simp] theorem State.setEf_mar (s : State) (v : Bool) : (s.setEf v).mar = s.mar := rfl
@[simp] theorem State.setEf_ir (s : State) (v : Bool) : (s.setEf v).ir = s.ir := rfl
@[simp] theorem State.setEf_cf (s : State) (v : Bool) : (s.setEf v).cf = s.cf := rfl
@[simp] theorem State.setEf_af (s : State) (v : Bool) : (s.setEf v).af = s.af := rfl
@[simp] theorem State.setEf_ef (s : State) (v : Bool) : (s.setEf v).ef = v := rfl
@[simp] theorem State.setEf_zf (s : State) (v : Bool) : (s.setEf v).zf = s.zf := rfl
@[simp] theorem State.setEf_mem (s : State) (v : Bool) : (s.setEf v).mem = s.mem := rfl
@[simp] theorem State.setEf_reg (s : State) (v : Bool) (r : Reg) : (s.setEf v).reg r = s.reg r := by cases r <;> rfl
@[simp] theorem State.setEf_memRead (s : State) (v : Bool) (a : Byte) : (s.setEf v).memRead a = s.memRead a := rfl

/-! ### `State.setZf` -/

@[simp] theorem State.setZf_r0 (s : State) (v : Bool) : (s.setZf v).r0 = s.r0 := rfl
@[simp] theorem State.setZf_r1 (s : State) (v : Bool) : (s.setZf v).r1 = s.r1 := rfl
@[simp] theorem State.setZf_r2 (s : State) (v : Bool) : (s.setZf v).r2 = s.r2 := rfl
@[simp] theorem State.setZf_r3 (s : State) (v : Bool) : (s.setZf v).r3 = s.r3 := rfl
@[simp] theorem State.setZf_iar (s : State) (v : Bool) : (s.setZf v).iar = s.iar := rfl
@[simp] theorem State.setZf_mar (s : State) (v : Bool) : (s.setZf v).mar = s.mar := rfl
@[simp] theorem State.setZf_ir (s : State) (v : Bool) : (s.setZf v).ir = s.ir := rfl
@[simp] theorem State.setZf_cf (s : State) (v : Bool) : (s.setZf v).cf = s.cf := rfl
@[simp] theorem State.setZf_af (s : State) (v : Bool) : (s.setZf v).af = s.af := rfl
@[simp] theorem State.setZf_ef (s : State) (v : Bool) : (s.setZf v).ef = s.ef := rfl
@[simp] theorem State.setZf_zf (s : State) (v : Bool) : (s.setZf v).zf = v := rfl
@[simp] theorem State.setZf_mem (s : State) (v : Bool) : (s.setZf v).mem = s.mem := rfl
@[simp] theorem State.setZf_reg (s : State) (v : Bool) (r : Reg) : (s.setZf v).reg r = s.reg r := by cases r <;> rfl
@[simp] theorem State.setZf_memRead (s : State) (v : Bool) (a : Byte) : (s.setZf v).memRead a = s.memRead a := rfl

/-! ### `State.memWrite` -/

@[simp] theorem State.memWrite_r0 (s : State) (a v : Byte) : (s.memWrite a v).r0 = s.r0 := rfl
@[simp] theorem State.memWrite_r1 (s : State) (a v : Byte) : (s.memWrite a v).r1 = s.r1 := rfl
@[simp] theorem State.memWrite_r2 (s : State) (a v : Byte) : (s.memWrite a v).r2 = s.r2 := rfl
@[simp] theorem State.memWrite_r3 (s : State) (a v : Byte) : (s.memWrite a v).r3 = s.r3 := rfl
@[simp] theorem State.memWrite_iar (s : State) (a v : Byte) : (s.memWrite a v).iar = s.iar := rfl
@[simp] theorem State.memWrite_mar (s : State) (a v : Byte) : (s.memWrite a v).mar = s.mar := rfl
@[simp] theorem State.memWrite_ir (s : State) (a v : Byte) : (s.memWrite a v).ir = s.ir := rfl
@[simp] theorem State.memWrite_cf (s : State) (a v : Byte) : (s.memWrite a v).cf = s.cf := rfl
@[simp] theorem State.memWrite_af (s : State) (a v : Byte) : (s.memWrite a v).af = s.af := rfl
@[simp] theorem State.memWrite_ef (s : State) (a v : Byte) : (s.memWrite a v).ef = s.ef := rfl
@[simp] theorem State.memWrite_zf (s : State) (a v : Byte) : (s.memWrite a v).zf = s.zf := rfl
@[simp] theorem State.memWrite_mem (s : State) (a v : Byte) : (s.memWrite a v).mem = Memory.write s.mem a v := rfl
@[simp] theorem State.memWrite_reg (s : State) (a v : Byte) (r : Reg) : (s.memWrite a v).reg r = s.reg r := by cases r <;> rfl
@[simp] theorem State.memWrite_fl (s : State) (a v : Byte) : (s.memWrite a v).fl = s.fl := rfl

/-- Two states with the same registers, flags and memory are one state. -/
theorem State.ext_reg (s t : State) (hr : ∀ r, s.reg r = t.reg r) (hi : s.iar = t.iar) (hm : s.mar = t.mar)
    (hir : s.ir = t.ir) (hc : s.cf = t.cf) (ha : s.af = t.af) (he : s.ef = t.ef) (hz : s.zf = t.zf)
    (hmem : s.mem = t.mem) : s = t := by
  have h0 := hr .r0
  have h1 := hr .r1
  have h2 := hr .r2
  have h3 := hr .r3
  cases s
  cases t
  simp only [State.reg] at h0 h1 h2 h3
  simp_all

end Sys2Proof.Machine
end

