-- ==== Sys2Proof/Laws/Ops.lean ====
section
/-! SUPPORT. One lemma for each shared operation of the machine, saying all it does in terms of the plain
updates, whose fields Laws/State.lean gives. -/

namespace Sys2Proof.Machine

/-- The whole effect of the fetch (R91). -/
theorem State.fetch_eq (s : State) :
    s.fetch = ((s.setMar s.iar).setIr s.nextOpcodeByte).setIar (s.iar + 1) := rfl

/-- The whole effect of a read through MAR (R31, R100). -/
theorem State.readVia_eq (s : State) (addr : Byte) : s.readVia addr = (s.memRead addr, s.setMar addr) := rfl

/-- The whole effect of a write through MAR (R31, R101). -/
theorem State.writeVia_eq (s : State) (addr v : Byte) :
    s.writeVia addr v = (s.setMar addr).memWrite addr v := rfl

/-- The whole effect of pointing MAR at the operand byte (R111). -/
theorem State.pointMarAtOperand_eq (s : State) : s.pointMarAtOperand = s.setMar s.iar := rfl

/-- The whole effect of passing the operand byte (R102, R112). -/
theorem State.passOperand_eq (s : State) : s.passOperand = (s.setMar s.iar).setIar (s.iar + 1) := rfl

/-- The whole effect of writing an ALU result (R125, R136). -/
theorem State.writeResult_eq (s : State) (rb : Reg) (t : Byte) :
    s.writeResult rb t = (s.setReg rb t).setZf (zeroFlag t) := rfl

/-- The whole effect of clearing the flags (R120). -/
theorem State.clearFlags_eq (s : State) :
    s.clearFlags = (((s.setCf false).setAf false).setEf false).setZf false := rfl

/-- The flags cleared are the nibble 0 (R16, R120). -/
@[simp] theorem State.clearFlags_fl (s : State) : s.clearFlags.fl = 0 := rfl

/-- `FL` bit by bit: CF, AF, EF, ZF from bit 3 down (R16). -/
theorem State.fl_eq_bits (s : State) :
    s.fl = BitVec.ofBool s.cf ++ BitVec.ofBool s.af ++ BitVec.ofBool s.ef ++ BitVec.ofBool s.zf := by
  unfold State.fl
  cases s.cf <;> cases s.af <;> cases s.ef <;> cases s.zf <;> rfl

@[simp] theorem zeroFlag_iff (t : Byte) : zeroFlag t = true ↔ t = 0 := by simp [zeroFlag]

@[simp] theorem equalFlag_iff (a b : Byte) : equalFlag a b = true ↔ a = b := by simp [equalFlag]

@[simp] theorem greaterFlag_iff (a b : Byte) : greaterFlag a b = true ↔ b.toNat < a.toNat := by
  simp [greaterFlag]

/-- A store keeps the canonical form of memory. -/
theorem State.wf_memWrite {s : State} (h : Memory.wf s.mem = true) (a v : Byte) :
    Memory.wf (s.memWrite a v).mem = true :=
  Memory.wf_write h a v

/-- A byte read after a store to another address. -/
theorem State.memRead_memWrite_of_ne {s : State} {a b : Byte} (h : b ≠ a) (v : Byte) :
    (s.memWrite a v).memRead b = s.memRead b :=
  Memory.lookup_put_other (fun e => h (BitVec.eq_of_toNat_eq e))

end Sys2Proof.Machine
end

