-- ==== Sys2Proof/Laws/PerInstr.lean ====
section
/-! SUPPORT. A family of facts about every instruction as syntax, one lemma per constructor of `Instr`. -/

namespace Sys2Proof.Laws.EncodedHead

/-- The encoding of `i` begins with an opcode byte whose high nibble is the number of `i`'s opcode (R50), it has
as many bytes as that opcode says (R51), and its don't-care bits are zero (D2). -/
def Statement (i : Instr) : Prop :=
  ∃ b rest, encode i = b :: rest ∧ opcodeMap (opcodeField b) = i.opcode ∧ (b :: rest).length = i.length ∧
    i.opcode.canonical b = true

theorem load (ra rb : Reg) : Statement (.load ra rb) := ⟨_, _, rfl, by cases ra <;> cases rb <;> decide⟩
theorem store (ra rb : Reg) : Statement (.store ra rb) := ⟨_, _, rfl, by cases ra <;> cases rb <;> decide⟩
theorem data (rb : Reg) (value : Byte) : Statement (.data rb value) := by
  refine ⟨_, _, rfl, by simp [opcodeByteWith, Instr.opcode], rfl, ?_⟩
  change Opcode.canonical .data (byteOf (opcodeNumber .data) (nibbleOf 0 (regBits rb))) = true
  cases rb <;> decide
theorem jmpr (rb : Reg) : Statement (.jmpr rb) := ⟨_, _, rfl, by cases rb <;> decide⟩
theorem jmp (addr : Byte) : Statement (.jmp addr) := by
  refine ⟨_, _, rfl, by simp [opcodeByteWith, Instr.opcode], rfl, ?_⟩
  change Opcode.canonical .jmp (byteOf (opcodeNumber .jmp) 0) = true
  decide
theorem jcond (mask : Nibble) (addr : Byte) : Statement (.jcond mask addr) :=
  ⟨_, _, rfl, by simp [opcodeByteWith, Instr.opcode], rfl, by simp [Opcode.canonical, Opcode.format, Format.dontCare, Instr.opcode]⟩
theorem clf : Statement .clf := ⟨_, _, rfl, by decide⟩
theorem pad : Statement .pad := ⟨_, _, rfl, by decide⟩
theorem add (ra rb : Reg) : Statement (.add ra rb) := ⟨_, _, rfl, by cases ra <;> cases rb <;> decide⟩
theorem shr (ra rb : Reg) : Statement (.shr ra rb) := ⟨_, _, rfl, by cases ra <;> cases rb <;> decide⟩
theorem shl (ra rb : Reg) : Statement (.shl ra rb) := ⟨_, _, rfl, by cases ra <;> cases rb <;> decide⟩
theorem not (ra rb : Reg) : Statement (.not ra rb) := ⟨_, _, rfl, by cases ra <;> cases rb <;> decide⟩
theorem and (ra rb : Reg) : Statement (.and ra rb) := ⟨_, _, rfl, by cases ra <;> cases rb <;> decide⟩
theorem or (ra rb : Reg) : Statement (.or ra rb) := ⟨_, _, rfl, by cases ra <;> cases rb <;> decide⟩
theorem xor (ra rb : Reg) : Statement (.xor ra rb) := ⟨_, _, rfl, by cases ra <;> cases rb <;> decide⟩
theorem cmp (ra rb : Reg) : Statement (.cmp ra rb) := ⟨_, _, rfl, by cases ra <;> cases rb <;> decide⟩

end Sys2Proof.Laws.EncodedHead
end

