-- ==== Sys2Proof/Tests/Slice0.lean ====
section
/-! SUPPORT. The model's own tests. Words are written out from spec/30_encoding.md R52 and R53, and the steps are
vectors of spec/95_test_vectors.md, named by their numbers there. -/

namespace Sys2Proof.Tests

open Sys2Proof.Machine

/-- A state with the given registers, flags `CF AF EF ZF` and cells, all else zero. -/
def given (regs : List Byte) (iar : Byte) (fl : Nibble) (cells : List (Byte × Byte)) : State :=
  { State.reset with
    r0 := regs.getD 0 0, r1 := regs.getD 1 0, r2 := regs.getD 2 0, r3 := regs.getD 3 0, iar := iar
    cf := fl.getLsbD 3, af := fl.getLsbD 2, ef := fl.getLsbD 1, zf := fl.getLsbD 0
    mem := cells.foldl (fun m c => Memory.write m c.1 c.2) [] }

/-- Whether the outcome is a next state of which `f` holds. -/
def nextIs (o : Result) (f : State → Bool) : Bool :=
  match o with
  | .next t => f t
  | .fault _ => false
  | .refused _ => false

/-! ### Well-formedness: each check refuses an ill-formed term -/

theorem test_image_too_long : imageWf (List.replicate 257 0) = false := by decide +kernel
theorem test_image_full : imageWf (List.replicate 256 0) = true := by decide +kernel
theorem test_data_byte_not_canonical : Opcode.canonical .data 0x2E = false := by decide
theorem test_jmp_byte_not_canonical : Opcode.canonical .jmp 0x4F = false := by decide
theorem test_every_load_byte_canonical : ∀ l : Nibble, Opcode.canonical .load (byteOf 0 l) = true := by decide
theorem test_memory_not_rising : Memory.wf [(5, 1), (3, 2)] = false := by decide
theorem test_memory_repeats : Memory.wf [(5, 1), (5, 2)] = false := by decide
theorem test_memory_lists_blank : Memory.wf [(5, 0)] = false := by decide
theorem test_memory_outside : Memory.wf [(256, 1)] = false := by decide
theorem test_memory_canonical : Memory.wf [(0, 1), (255, 2)] = true := by decide

/-! ### Decoding: words written out from the encoding -/

theorem test_decode_load : decode [0b00001110] = .instr (.load .r3 .r2) [] := by decide
theorem test_decode_store : decode [0b00010101] = .instr (.store .r1 .r1) [] := by decide
theorem test_decode_data : decode [0b00100010, 0xAB, 0x11] = .instr (.data .r2 0xAB) [0x11] := by decide
theorem test_decode_data_dont_care : decode [0b00101110, 0xAB] = .instr (.data .r2 0xAB) [] := by decide
theorem test_decode_jmpr : decode [0b00111110] = .instr (.jmpr .r2) [] := by decide
theorem test_decode_jmp : decode [0b01001111, 0x80] = .instr (.jmp 0x80) [] := by decide
theorem test_decode_jcond : decode [0b01011001, 0x80] = .instr (.jcond 0b1001 0x80) [] := by decide
theorem test_decode_clf : decode [0b01101111, 0x01] = .instr .clf [0x01] := by decide
theorem test_decode_pad : decode [0b01110000, 0x01] = .instr .pad [0x01] := by decide
theorem test_decode_add : decode [0b10001110] = .instr (.add .r3 .r2) [] := by decide
theorem test_decode_shr : decode [0b10010001] = .instr (.shr .r0 .r1) [] := by decide
theorem test_decode_shl : decode [0b10101011] = .instr (.shl .r2 .r3) [] := by decide
theorem test_decode_not : decode [0b10110001] = .instr (.not .r0 .r1) [] := by decide
theorem test_decode_and : decode [0b11000001] = .instr (.and .r0 .r1) [] := by decide
theorem test_decode_or : decode [0b11010001] = .instr (.or .r0 .r1) [] := by decide
theorem test_decode_xor : decode [0b11100001] = .instr (.xor .r0 .r1) [] := by decide
theorem test_decode_cmp : decode [0b11111011] = .instr (.cmp .r2 .r3) [] := by decide
theorem test_decode_no_bytes : decode [] = .rejected .noOpcodeByte := by decide
theorem test_decode_no_operand : decode [0b01000000] = .rejected .noOperandByte := by decide
/-- Section 1.5: `DATA R3, 0x30` encodes to `23 30`. -/
theorem test_encode_data : encode (.data .r3 0x30) = [0x23, 0x30] := by decide
/-- Section 1.5: `SHL R2, R3` encodes to `AB`. -/
theorem test_encode_shl : encode (.shl .r2 .r3) = [0xAB] := by decide
/-- The second byte is bits 15 to 8. -/
theorem test_table_word : decodeTableWord 16 0xAB22 = some (.data .r2 0xAB) := by decide
theorem test_table_word_short : decodeTableWord 8 0xAB40 = some (.jmp 0) := by decide
theorem test_fetch_word_runs : nextIs (step (State.reset.withFetchWord 16 0x8040))
    (fun t => t.iar == 0x80 && t.ir == 0x40) = true := by decide

/-! ### Steps -/

/-- M2: the address is read before the register is overwritten. -/
theorem test_step_load_same : nextIs (step (given [0x40] 0x10 0 [(0x10, 0x00), (0x40, 0x99)]))
    (fun t => t.r0 == 0x99 && t.mar == 0x40) = true := by decide
/-- M3. -/
theorem test_step_load_top : nextIs (step (given [0, 0, 0, 0xFF] 0x10 0 [(0x10, 0x0E), (0xFF, 0x12)]))
    (fun t => t.r2 == 0x12 && t.iar == 0x11) = true := by decide
/-- S1: the STORE overwrites the cell it was fetched from. -/
theorem test_step_store_self : nextIs (step (given [0x10, 0x60] 0x10 0 [(0x10, 0x11)]))
    (fun t => t.memRead 0x10 == 0x60 && t.ir == 0x11) = true := by decide
/-- M7. -/
theorem test_step_store_same : nextIs (step (given [0, 0x41] 0x10 0 [(0x10, 0x15)]))
    (fun t => t.memRead 0x41 == 0x41 && t.mar == 0x41) = true := by decide
/-- M11: DATA of 0 leaves ZF alone. -/
theorem test_step_data_zero : nextIs (step (given [0x55] 0x10 0 [(0x10, 0x20)]))
    (fun t => t.r0 == 0 && t.zf == false) = true := by decide
/-- X1: the operand byte wraps to address 0. -/
theorem test_step_data_wraps : nextIs (step (given [] 0xFF 0 [(0xFF, 0x20), (0x00, 0x5A)]))
    (fun t => t.r0 == 0x5A && t.iar == 0x01) = true := by decide
/-- B2: IR keeps the don't-care bits, the jump ignores them. -/
theorem test_step_jmpr : nextIs (step (given [0, 0, 0x80, 0x44] 0x10 0 [(0x10, 0x3E)]))
    (fun t => t.iar == 0x80 && t.ir == 0x3E) = true := by decide
/-- X3. -/
theorem test_step_jmp_wraps : nextIs (step (given [] 0xFF 0 [(0xFF, 0x40), (0x00, 0x33)]))
    (fun t => t.iar == 0x33 && t.mar == 0x00) = true := by decide
/-- J1, the source's example: mask CZ, flags AZ. -/
theorem test_step_jcond_taken : nextIs (step (given [] 0x10 0b0101 [(0x10, 0x59), (0x11, 0x80)]))
    (fun t => t.iar == 0x80 && t.fl == 0b0101) = true := by decide
/-- J7: the mask selects ZF only. -/
theorem test_step_jcond_not_taken : nextIs (step (given [] 0x10 0b1110 [(0x10, 0x51), (0x11, 0x80)]))
    (fun t => t.iar == 0x12 && t.mar == 0x11) = true := by decide
/-- The whole table of section 2.4, by its count: 175 of the 256 cells are taken. -/
theorem test_jcond_table_count :
    ((List.range 256).filter (fun n => jumpTaken (BitVec.ofNat 4 (n / 16)) (BitVec.ofNat 4 n))).length = 175 := by
  decide +kernel
/-- F2. -/
theorem test_step_clf : nextIs (step (given [] 0x10 0b1010 [(0x10, 0x6F)]))
    (fun t => t.fl == 0 && t.iar == 0x11) = true := by decide
/-- U2. -/
theorem test_step_pad : nextIs (step (given [] 0x10 0b0101 [(0x10, 0x7F)]))
    (fun t => t.fl == 0b0101 && t.iar == 0x11) = true := by decide
/-- A1, the source's example. -/
theorem test_step_add_carries : nextIs (step (given [0xFF, 0x01] 0x10 0 [(0x10, 0x81)]))
    (fun t => t.r1 == 0x00 && t.fl == 0b1001) = true := by decide
/-- A3: the carry-out ignores the carry-in (C4). -/
theorem test_step_add_quirk : nextIs (step (given [0xFF, 0x00] 0x10 0b1000 [(0x10, 0x81)]))
    (fun t => t.r1 == 0x00 && t.fl == 0b0001) = true := by decide
/-- Q1's last column: with the switch set the carry-out is 1. -/
theorem test_add_switch_set : addCarryOut true 0xFF 0x00 true = true := by decide
/-- H2. -/
theorem test_step_shr : nextIs (step (given [0x01, 0x55] 0x10 0b1000 [(0x10, 0x91)]))
    (fun t => t.r1 == 0x80 && t.fl == 0b1000) = true := by decide
/-- H5. -/
theorem test_step_shr_keeps_af_ef : nextIs (step (given [0xFF, 0x55] 0x10 0b0110 [(0x10, 0x91)]))
    (fun t => t.r1 == 0x7F && t.fl == 0b1110) = true := by decide
/-- L1. -/
theorem test_step_shl : nextIs (step (given [0x80, 0x55] 0x10 0 [(0x10, 0xA1)]))
    (fun t => t.r1 == 0x00 && t.fl == 0b1001) = true := by decide
/-- L6: in place. -/
theorem test_step_shl_same : nextIs (step (given [0xC0] 0x10 0b1000 [(0x10, 0xA0)]))
    (fun t => t.r0 == 0x81 && t.fl == 0b1000) = true := by decide
/-- G1. -/
theorem test_step_not : nextIs (step (given [0x00, 0x55] 0x10 0b1111 [(0x10, 0xB1)]))
    (fun t => t.r1 == 0xFF && t.fl == 0b1110) = true := by decide
/-- G6. -/
theorem test_step_and : nextIs (step (given [0xF0, 0x0F] 0x10 0b1110 [(0x10, 0xC1)]))
    (fun t => t.r1 == 0x00 && t.fl == 0b1111) = true := by decide
/-- G9. -/
theorem test_step_or : nextIs (step (given [0xF0, 0x3C] 0x10 0b1111 [(0x10, 0xD1)]))
    (fun t => t.r1 == 0xFC && t.fl == 0b1110) = true := by decide
/-- G12. -/
theorem test_step_xor : nextIs (step (given [0xF0, 0x3C] 0x10 0b1111 [(0x10, 0xE1)]))
    (fun t => t.r1 == 0xCC && t.fl == 0b1110) = true := by decide
/-- K3: CF and ZF are kept. -/
theorem test_step_cmp_equal : nextIs (step (given [0x07, 0x07] 0x10 0b1101 [(0x10, 0xF1)]))
    (fun t => t.r1 == 0x07 && t.fl == 0b1011) = true := by decide
/-- K4: the comparison is unsigned. -/
theorem test_step_cmp_unsigned : nextIs (step (given [0x80, 0x7F] 0x10 0 [(0x10, 0xF1)]))
    (fun t => t.fl == 0b0100) = true := by decide
/-- E2, through the one-block pseudocode of R95. -/
theorem test_block_load : (stepBlock (given [0x11, 0x22, 0x33, 0x44] 0x10 0 [(0x10, 0x0F), (0x44, 0x99)])).r3 = 0x99 := by
  decide

/-! ### Host operations (section 2.16) -/

/-- O2. -/
theorem test_reset_registers : nextIs (hostAct (given [0xAA] 0x37 0b1010 [(0x01, 0x22), (0x80, 0x5A)]) .resetRegisters)
    (fun t => t.r0 == 0 && t.iar == 0 && t.fl == 0 && t.memRead 0x80 == 0x5A) = true := by decide
/-- O4: cells above the program and the registers are kept. -/
theorem test_load_keeps : nextIs
    (hostAct (given [0xAA] 0x37 0b1010 [(0x04, 0x05), (0x05, 0x06)]) (.load [0x20, 0x05, 0x21, 0x03, 0x81]))
    (fun t => t.memRead 0x04 == 0x81 && t.memRead 0x05 == 0x06 && t.iar == 0x37 && t.r0 == 0xAA) = true := by decide
/-- R23: loaded and not reset, at IAR 0x02 with FL 1111, the first step runs byte 2 of the program. -/
theorem test_load_without_reset : nextIs (hostRun (given [0xAA] 0x02 0b1111 []) [.load [0x20, 0x05, 0x70], .step])
    (fun t => t.ir == 0x70 && t.iar == 0x03 && t.r0 == 0xAA && t.fl == 0b1111) = true := by decide
/-- O6. -/
theorem test_load_empty : (given [0xAA] 0x37 0b1010 []).load [] = given [0xAA] 0x37 0b1010 [] := by decide

/-! ### The assembler -/

/-- The spec's own stand-ins for the open characters, and some value for each open point. -/
def params : AsmParams where
  labelMarker := '.'
  commentChar := ';'
  padIsMnemonic := false
  bareJIsMnemonic := false
  labelAsData := false
  registerCaseMatters := true
  labelCaseMatters := true
  labelNameOk := fun name => name.all Char.isAlphanum
  maxLiteralLength := some 6
  byteAtCut := fun b => b
  byteOutside := fun _ => 0xFF

/-- A line of three words, and its comment. -/
theorem test_words : Asm.words params 7 ['D', 'A', 'T', 'A', ' ', 'R', '0', ',', ' ', '5', ' ', ';', 'x'] =
    [⟨7, 0, ['D', 'A', 'T', 'A']⟩, ⟨7, 5, ['R', '0']⟩, ⟨7, 9, ['5']⟩] := by decide
/-- R74: JCZ is mask 1001, in either order and in small letters. -/
theorem test_letters : Asm.parseInstr params ⟨1, 0, ['j', 'z', 'c']⟩ [⟨1, 4, ['0', 'x', '8', '0']⟩] =
    .ok (.code (.jcond 0b1001 0x80) none) := by rfl
/-- A forward and a backward reference, as in P2: `JZ .d`, `.l:`, `JMP .l`, `.d:`, `CLF`. -/
theorem test_assemble_labels : Asm.assemble params
    [['J', 'Z', ' ', '.', 'd'], ['.', 'l', ':'], ['J', 'M', 'P', ' ', '.', 'l'], ['.', 'd', ':'], ['C', 'L', 'F']] =
    .ok ⟨[0x51, 0x04, 0x40, 0x02, 0x60], []⟩ := by rfl
/-- R75: the error names both lines. -/
theorem test_duplicate_label : Asm.assemble params [['.', 'a', ':'], ['.', 'a', ':']] =
    .error (.duplicateLabel 2 1 ['a']) := by rfl
/-- R77: the error names the reference's line. -/
theorem test_undefined_label : Asm.assemble params [['C', 'L', 'F'], ['J', 'M', 'P', ' ', '.', 'a']] =
    .error (.undefinedLabel 2 ['a']) := by rfl
/-- R75: a definition has at least three characters. -/
theorem test_label_too_short : Asm.labelDefName params ['.', ':'] = none := by decide
/-- Where the case of letters counts, `.a` and `.A` are two labels; where it does not, they are one (N17). -/
theorem test_label_case : Asm.assemble params [['.', 'A', ':'], ['J', 'M', 'P', ' ', '.', 'a']] =
      .error (.undefinedLabel 2 ['a']) ∧
    Asm.assemble { params with labelCaseMatters := false } [['.', 'A', ':'], ['J', 'M', 'P', ' ', '.', 'a']] =
      .ok ⟨[0x40, 0x00], []⟩ := ⟨rfl, rfl⟩
/-- R78: defined and never referenced. -/
theorem test_unused_label : Asm.assemble params [['.', 'a', ':'], ['C', 'L', 'F']] =
    .ok ⟨[0x60], [.unusedLabel 1 ['a']]⟩ := by rfl
/-- R73: above 255, and hex digits without the leading `0x`; R80: the caret. -/
theorem test_literal_too_large : Asm.parseLiteral params ⟨1, 4, ['2', '5', '6']⟩ =
    .error (.badLiteral 1 ['2', '5', '6']) := by rfl
theorem test_literal_no_0x : Asm.assemble params [['J', 'M', 'P', ' ', '1', 'F']] =
    .error (.hexWithoutPrefix 1 4 ['1', 'F']) := by rfl
/-- R80: "literal too long/too short". -/
theorem test_literal_length : Asm.parseLiteral params ⟨1, 4, ['0', '0', '0', '0', '0', '0', '5']⟩ =
      .error (.literalTooLong 1 4 ['0', '0', '0', '0', '0', '0', '5']) ∧
    Asm.parseLiteral params ⟨1, 4, ['0', 'x']⟩ = .error (.literalTooShort 1 4 ['0', 'x']) := ⟨rfl, rfl⟩
/-- R72. -/
theorem test_bad_register : Asm.parseRegister params ⟨1, 0, ['R', '4']⟩ = .error (.badRegister 1 ['R', '4']) := by rfl
/-- R80: a register, a literal, a label where an instruction is required is syntactic; a mnemonic that is none is not. -/
theorem test_unexpected_word : ∀ t ∈ [['R', '1'], ['5'], ['.', 'a']],
    (match Asm.parseInstr params ⟨1, 0, t⟩ [] with
      | .ok _ => none
      | .error err => some err.errorClass) = some .syntactic := by decide
theorem test_unknown_mnemonic : Asm.parseInstr params ⟨1, 0, ['R', 'O', 'L']⟩ [] =
    .error (.unknownInstruction 1 ['R', 'O', 'L']) := by rfl
/-- R79: the instruction that passes the ceiling is cut to one byte, with the warning. -/
theorem test_truncation :
    ((Asm.Emitted.mk (List.replicate 255 0x60) [] [] [] []).truncate params 9 (.jmp 0) []).bytes.length = 256 := by
  decide +kernel
/-- R79: a label defined after the cut is no error, and its reference holds the open byte. -/
theorem test_label_after_cut :
    (match Asm.assemble params (['J', 'M', 'P', ' ', '.', 'a'] :: (List.replicate 255 ['C', 'L', 'F'] ++ [['.', 'a', ':']])) with
      | .ok out => out.image.length == 256 && out.image[1]? == some 0xFF && out.warnings == [.truncated 256]
      | .error _ => false) = true := by decide +kernel

/-! ### Witnesses: states and operands that meet the hypotheses of the statements -/

/-- Each opcode is selected by some opcode byte: the encoding clauses of the instructions' statements, and the
pair of map and numbering of DecodeOfEncodeIsTheInstruction. -/
theorem witness_every_opcode_selected : ∀ o : Opcode, opcodeMap ((byteOf (opcodeNumber o) 0).extractLsb' 4 4) = o := by
  intro o; cases o <;> decide
theorem witness_map_and_numbering : ∀ o : Opcode, opcodeMap (opcodeNumber o) = o := opcodeMap_opcodeNumber
theorem witness_step_runs_decoded : decode [State.reset.memRead 0, State.reset.memRead 1] = .instr (.load .r0 .r0) [0] ∧
    (Instr.load .r0 .r0).wf = true := by decide
/-- Both ends of every range of OpcodeByteRanges. -/
theorem witness_ranges : ∀ n : Nibble, (decodeBytes (byteOf n 0x0) 0).opcode = opcodeMap n ∧
    (decodeBytes (byteOf n 0xF) 0).opcode = opcodeMap n := by decide

/-- A state about to run the byte `b` at address 0x10. -/
abbrev about (b : Byte) : State := given [0x10, 0x11, 0x80, 0x44] 0x10 0b1000 [(0x10, b), (0x11, 0x80)]

theorem witness_dont_care_data : Memory.wf (about 0x2E).mem = true ∧ (about 0x2E).nextOpcode = .data ∧
    (0x22#8).extractLsb' 4 4 = ((about 0x2E).memRead 0x10).extractLsb' 4 4 ∧
    (0x22#8).extractLsb' 0 2 = ((about 0x2E).memRead 0x10).extractLsb' 0 2 ∧ ∃ t, step (about 0x2E) = .next t :=
  ⟨by decide, by decide, by decide, by decide, _, rfl⟩
theorem witness_dont_care_jmpr : (about 0x3E).nextOpcode = .jmpr ∧
    (0x32#8).extractLsb' 0 2 = ((about 0x3E).memRead 0x10).extractLsb' 0 2 := by decide
theorem witness_dont_care_others : (about 0x4F).nextOpcode = .jmp ∧ (about 0x6F).nextOpcode = .clf ∧
    (about 0x7F).nextOpcode = .pad := by decide
/-- What the last two share: canonical memory, the same opcode number, a next state. -/
theorem witness_dont_care_common : ∀ c ∈ [((0x3E#8), (0x32#8)), (0x4F, 0x40), (0x6F, 0x60), (0x7F, 0x70)],
    Memory.wf (about c.1).mem = true ∧ c.2.extractLsb' 4 4 = ((about c.1).memRead 0x10).extractLsb' 4 4 ∧
    nextIs (step (about c.1)) (fun _ => true) = true := by
  intro c h
  simp only [List.mem_cons, List.not_mem_nil, or_false] at h
  rcases h with rfl | rfl | rfl | rfl <;> exact ⟨by decide, by decide, by decide⟩
theorem witness_canonical_memories : Memory.wf [(0, 1), (255, 2)] = true := by decide
/-- The byte 0x14 is `STORE R1, R0`, with R1 the next instruction's address, and 0x10 is `STORE R0, R0`, with R0 its own. -/
theorem witness_store_next : Memory.wf (about 0x14).mem = true ∧ (about 0x14).nextOpcode = .store ∧
    (about 0x14).reg (about 0x14).nextRa = (about 0x14).iar + 1 ∧ ∃ t, step (about 0x14) = .next t :=
  ⟨by decide, by decide, by decide, _, rfl⟩
theorem witness_store_self : Memory.wf (about 0x10).mem = true ∧ (about 0x10).nextOpcode = .store ∧
    (about 0x10).reg (about 0x10).nextRa = (about 0x10).iar ∧ ∃ t, step (about 0x10) = .next t :=
  ⟨by decide, by decide, by decide, _, rfl⟩
theorem witness_top : ∀ b ∈ [(0x20#8), 0x40, 0x50, 0x5F, 0x60, 0x81], (given [] 0xFF 0b1000 [(0xFF, b)]).iar = 255 ∧
    nextIs (step (given [] 0xFF 0b1000 [(0xFF, b)])) (fun _ => true) = true := by decide
theorem witness_top_opcodes : (given [] 0xFF 0 [(0xFF, 0x20)]).nextOpcode = .data ∧
    (given [] 0xFF 0 [(0xFF, 0x40)]).nextOpcode = .jmp ∧ (given [] 0xFF 0 [(0xFF, 0x5F)]).nextOpcode = .jcond ∧
    (given [] 0xFF 0 [(0xFF, 0x81)]).nextOpcode.length = 1 ∧ (given [] 0xFF 0 [(0xFF, 0x81)]).nextOpcode ≠ .jmpr := by
  decide
/-- For the frames: each instruction answers a next state. -/
theorem witness_frames : ∀ i ∈ [Instr.load .r0 .r0, .store .r0 .r1, .data .r3 0xFF, .jmpr .r0, .jmp 0, .jcond 0xF 0, .clf, .pad,
      .add .r0 .r0, .shr .r0 .r1, .shl .r3 .r3, .not .r0 .r1, .and .r0 .r1, .or .r0 .r1, .xor .r0 .r0, .cmp .r0 .r1],
    nextIs (exec i (about 0)) (fun _ => true) = true := by decide
theorem witness_alu_member : Instr.not .r0 .r1 ∈ [Instr.add .r0 .r1, .shr .r0 .r1, .shl .r0 .r1, .not .r0 .r1, .and .r0 .r1,
    .or .r0 .r1, .xor .r0 .r1] := by decide
/-- For the whole-step rules: a step that changes a register, in a state that meets the invariant. -/
theorem witness_step_changes_rb : (about 0x81).inv = true ∧
    nextIs (step (about 0x81)) (fun t => t.reg .r1 != (about 0x81).reg .r1) = true := by decide
theorem witness_self_jump : (given [] 0x10 0 [(0x10, 0x40), (0x11, 0x10)]).nextOpcode = .jmp ∧
    (given [] 0x10 0 [(0x10, 0x40), (0x11, 0x10)]).memRead (0x10 + 1) = 0x10 := by decide
theorem witness_host : (about 0x81).inv = true ∧ Memory.wf (about 0x81).mem = true ∧
    (about 0x81).compareFlagsExclusive = true := by decide
/-- The invariant admits a machine that was never reset: every register full and all four flags 1 (R23). -/
theorem witness_never_reset : (given [0xFF, 0xFF, 0xFF, 0xFF] 0xFF 0b1111 [(0xFF, 0x81)]).inv = true ∧
    (given [0xFF, 0xFF, 0xFF, 0xFF] 0xFF 0b1111 [(0xFF, 0x81)]).compareFlagsExclusive = false := by decide
theorem witness_letters : Asm.lettersMask ['C', 'Z', 'C'] = some 0b1001 ∧ Asm.lettersMask ['C', 'X'] = none := by decide
theorem witness_ranges_member : (0xF0, 0xFF, Opcode.cmp) ∈ [(0x00, 0x0F, Opcode.load), (0xF0, 0xFF, .cmp)] ∧
    0xF0 ≤ (0xF0#8).toNat ∧ (0xFF#8).toNat ≤ 0xFF := by decide
theorem witness_two_registers : Asm.parseInstr params ⟨1, 0, ['A', 'D', 'D']⟩ [⟨1, 4, ['R', '0']⟩, ⟨1, 7, ['R', '1']⟩] =
    .ok (.code (.add .r0 .r1) none) := by rfl
theorem witness_assembles : Asm.assemble params [['A', 'D', 'D', ' ', 'R', '0', ',', 'R', '1']] = .ok ⟨[0x81], []⟩ := by rfl
theorem witness_truncated : (match Asm.assemble params (List.replicate 257 ['C', 'L', 'F']) with
    | .ok out => out.warnings.contains (.truncated 257)
    | .error _ => false) = true := by decide +kernel
/-- A source that reaches the ceiling with a reference to a label defined after the cut. -/
theorem witness_ceiling :
    (match Asm.emitLines params (['J', 'M', 'P', ' ', '.', 'a'] :: (List.replicate 255 ['C', 'L', 'F'] ++ [['.', 'a', ':']])) 1
        .start with
      | .ok e => e.warnings.contains (.truncated 256) && e.refs == [⟨['a'], 1, 1⟩]
      | .error _ => false) = true ∧ Asm.lineLabel params 257 ['.', 'a', ':'] = some ['a'] := by decide +kernel
theorem witness_resolution : ([(⟨['a'], 1, 1⟩ : Asm.PatchRequest)].map (·.offset)).Nodup ∧
    (∀ r ∈ [(⟨['a'], 1, 1⟩ : Asm.PatchRequest)], r.offset < [(0x40#8), 0x00].length) ∧
    Asm.resolve params [⟨['a'], 0, 1⟩] [⟨['a'], 1, 1⟩] [0x40, 0x00] = .ok [0x40, 0x00] :=
  ⟨by decide, by decide, rfl⟩

end Sys2Proof.Tests
end

section
/-! PROOFS. The statements about memory (spec/20_memory.md). The law `State.memRead_memWrite_of_ne` gives the other
cells; what is missing among the laws is the written cell itself, and the two orders of storing and setting MAR. -/

namespace Sys2Proof.Machine

/-- The cell just written reads as the value written (R31). -/
theorem State.memRead_memWrite_same {s : State} (h : Memory.wf s.mem = true) (a v : Byte) :
    (s.memWrite a v).memRead a = v :=
  Memory.lookup_put_same h

/-- A store does not depend on MAR, so MAR may be written before it or after it. -/
theorem State.setMar_memWrite_comm (s : State) (a b v : Byte) :
    (s.setMar b).memWrite a v = (s.memWrite a v).setMar b := rfl

/-- Settles O9: the reads by the laws of reading after a write, the accesses by the whole effects of `readVia` and
`writeVia`. -/
theorem readAfterWrite : Obligations.ReadAfterWrite := by
  intro s a v hwf
  refine ⟨State.memRead_memWrite_same hwf a v, fun b hb => State.memRead_memWrite_of_ne hb v,
    State.readVia_eq s a, ?_⟩
  calc s.writeVia a v = (s.setMar a).memWrite a v := State.writeVia_eq s a v
    _ = (s.memWrite a v).setMar a := State.setMar_memWrite_comm s a a v

end Sys2Proof.Machine
end

section
/-! PROOFS. The don't-care bits (spec/30_encoding.md R57). A byte that differs only in them decodes alike, and an
instruction that has them reads neither IR nor any memory cell, so it cannot tell which of the two bytes was fetched. -/

namespace Sys2Proof.Machine

/-! ### The decoder -/

/-- Bytes with the same opcode, and the same `RB` where that opcode is of format R or RI, decode alike when their
opcode has don't-care bits (R52, R57). -/
theorem decodeBytes_eq_of_dontCare {b c : Byte} (x : Byte) (hop : opcodeField b = opcodeField c)
    (h : (opcodeMap (opcodeField c) = .data ∨ opcodeMap (opcodeField c) = .jmpr) ∧ rbField b = rbField c ∨
      opcodeMap (opcodeField c) = .jmp ∨ opcodeMap (opcodeField c) = .clf ∨ opcodeMap (opcodeField c) = .pad) :
    decodeBytes b x = decodeBytes c x := by
  unfold decodeBytes decodeBytesWith
  rw [hop]
  rcases h with ⟨h | h, hrb⟩ | h | h | h
  · simp only [h, hrb]
  · simp only [h, hrb]
  all_goals simp only [h]

/-- The next instruction has the next opcode (R59). -/
theorem State.opcode_nextInstr (s : State) : s.nextInstr.opcode = s.nextOpcode :=
  opcode_decodeBytesWith opcodeMap s.nextOpcodeByte s.nextOperandByte

/-! ### Another byte in the fetched cell and in IR -/

/-- `s` with the byte `b` in the cell `a` and in IR, as after a fetch of `b` from `a`. -/
def State.withFetched (s : State) (a b : Byte) : State := (s.memWrite a b).setIr b

/-- A register write commutes with `withFetched`; the updates of the other items do so by `rfl`. -/
theorem State.setReg_withFetched (s : State) (a b : Byte) (r : Reg) (v : Byte) :
    (s.withFetched a b).setReg r v = (s.setReg r v).withFetched a b := by
  cases r <;> rfl

/-- An instruction whose opcode byte has don't-care bits reads neither IR nor memory, and writes neither, so another
fetched byte in both is carried along unchanged (R57). -/
theorem exec_withFetched {i : Instr} {s t : State} (a b : Byte) (hi : i.opcode.format.dontCare ≠ 0)
    (h : exec i s = .next t) : exec i (s.withFetched a b) = .next (t.withFetched a b) := by
  cases i with
  | data rb value =>
    cases h
    exact congrArg _ (State.setReg_withFetched s.passOperand a b rb value)
  | jmpr rb =>
    cases h
    cases rb <;> rfl
  | jmp addr => cases h; rfl
  | clf => cases h; rfl
  | pad => cases h; rfl
  | _ => exact absurd rfl hi

/-! ### The step after a store at IAR -/

/-- The opcode byte at IAR is the byte just stored there (R12, R31). -/
theorem State.nextOpcodeByte_memWrite_iar {s : State} (h : Memory.wf s.mem = true) (b : Byte) :
    (s.memWrite s.iar b).nextOpcodeByte = b :=
  State.memRead_memWrite_same h s.iar b

/-- A store at IAR does not reach the operand byte, which lies at another address even where IAR wraps (R43). -/
theorem State.nextOperandByte_memWrite_iar (s : State) (b : Byte) :
    (s.memWrite s.iar b).nextOperandByte = s.nextOperandByte := by
  have hne : s.iar + 1 ≠ s.iar := by bv_omega
  exact State.memRead_memWrite_of_ne hne b

/-- The fetch after a store at IAR differs from the fetch without it in that cell and in IR only (R91). -/
theorem State.fetch_memWrite_iar {s : State} (h : Memory.wf s.mem = true) (b : Byte) :
    (s.memWrite s.iar b).fetch = s.fetch.withFetched s.iar b := by
  rw [State.fetch_eq, State.nextOpcodeByte_memWrite_iar h]
  rfl

/-- Where the byte stored at IAR decodes as the one that stood there, and its opcode has don't-care bits, the step
differs in that cell and in IR only. -/
theorem step_memWrite_iar {s t : State} {b : Byte} (hwf : Memory.wf s.mem = true)
    (hdc : s.nextOpcode.format.dontCare ≠ 0)
    (hdec : decodeBytes b s.nextOperandByte = s.nextInstr) (h : step s = .next t) :
    step (s.memWrite s.iar b) = .next (t.withFetched s.iar b) := by
  have hnext : (s.memWrite s.iar b).nextInstr = s.nextInstr := by
    rw [State.nextInstr, State.nextOpcodeByte_memWrite_iar hwf, State.nextOperandByte_memWrite_iar, hdec]
  rw [step, hnext, State.fetch_memWrite_iar hwf]
  rw [← State.opcode_nextInstr] at hdc
  exact exec_withFetched s.iar b hdc h

/-- Settles O6: the two bytes decode alike, and the five forms each have don't-care bits. -/
theorem dontCareBitsAreIgnored : Obligations.DontCareBitsAreIgnored := by
  intro s t b hwf hop hform hstep
  have hdc : s.nextOpcode.format.dontCare ≠ 0 := by
    rcases hform with ⟨h | h, -⟩ | h | h | h <;> rw [h] <;> decide
  have hdec : decodeBytes b s.nextOperandByte = s.nextInstr :=
    decodeBytes_eq_of_dontCare s.nextOperandByte hop (hform.imp_left (And.imp_right (congrArg regOfBits)))
  exact step_memWrite_iar hwf hdc hdec hstep

end Sys2Proof.Machine
end

section
/-! PROOFS. The step (spec/40_step_cycle.md). Every instruction goes on to a next state, so every step does (R93); and
the two bytes at IAR decode as a list to what the step decodes them to, so the step runs that instruction (R91). -/

namespace Sys2Proof.Machine

/-! ### Every instruction has a next state -/

/-- The whole effect of JCOND (R112): the operand byte is passed, and IAR is written where the condition holds. -/
theorem execJcond_eq (mask : Nibble) (addr : Byte) (s : State) :
    execJcond mask addr s =
      .next (if jumpTaken mask s.passOperand.fl then s.passOperand.setIar addr else s.passOperand) :=
  (apply_ite Host.Outcome.next _ _ _).symm

/-- No instruction faults and none is refused (R93). JCOND alone answers in two places; the others answer their one
next state outright. -/
theorem exec_eq_next (i : Instr) (s : State) : ∃ t : State, exec i s = .next t := by
  cases i with
  | jcond mask addr => exact ⟨_, execJcond_eq mask addr s⟩
  | _ => exact ⟨_, rfl⟩

/-- Settles O2: the fetched instruction has a next state, and an outcome `next` holds one state only. -/
theorem stepIsTotalAndDeterministic : Obligations.StepIsTotalAndDeterministic := by
  intro s
  obtain ⟨t, ht⟩ := exec_eq_next s.nextInstr s.fetch
  have hstep : step s = .next t := ht
  exact ⟨t, hstep, fun u hu => Host.Outcome.next.inj (hu.symm.trans hstep)⟩

/-! ### The instruction that a step runs -/

/-- What a list of two bytes decodes to is what the two bytes decode to, with an operand byte or without (R51). -/
theorem decodeBytes_eq_of_decode {b x : Byte} {i : Instr} {rest : List Byte} (h : decode [b, x] = .instr i rest) :
    decodeBytes b x = i := by
  cases hlen : (opcodeMap (opcodeField b)).format.hasOperandByte with
  | true =>
    obtain ⟨hi, -⟩ := Decoded.instr.inj ((decodeWith_long x [] hlen).symm.trans h)
    exact hi
  | false =>
    obtain ⟨hi, -⟩ := Decoded.instr.inj ((decodeWith_short [x] hlen).symm.trans h)
    exact (decodeBytesWith_short hlen x 0).trans hi

/-- Settles O1: the step runs the decoded instruction, on the state of the whole effect of the fetch. -/
theorem stepRunsTheDecodedInstruction : Obligations.StepRunsTheDecodedInstruction := by
  intro s i rest hdec _
  have hnext : s.nextInstr = i := decodeBytes_eq_of_decode hdec
  rw [step, hnext, State.fetch_eq]
  rfl

end Sys2Proof.Machine
end

section
/-! PROOFS. LOAD, STORE and DATA (spec/41_load_store_data.md). For each an equation of the decoder, at any opcode map, and
one of `exec`, the whole effect in terms of the plain updates. -/

namespace Sys2Proof.Machine

/-! ### The decoder -/

/-- An opcode byte whose number the map gives to LOAD is of format RR (R52, R54). -/
theorem decodeBytesWith_load {m : Nibble → Opcode} {b : Byte} (h : m (opcodeField b) = .load) (x : Byte) :
    decodeBytesWith m b x = .load (raField b) (rbField b) := by
  simp only [decodeBytesWith, h]

/-- An opcode byte whose number the map gives to STORE is of format RR (R52, R54). -/
theorem decodeBytesWith_store {m : Nibble → Opcode} {b : Byte} (h : m (opcodeField b) = .store) (x : Byte) :
    decodeBytesWith m b x = .store (raField b) (rbField b) := by
  simp only [decodeBytesWith, h]

/-- An opcode byte whose number the map gives to DATA is of format RI, with the next byte as the value (R52, R56). -/
theorem decodeBytesWith_data {m : Nibble → Opcode} {b : Byte} (h : m (opcodeField b) = .data) (x : Byte) :
    decodeBytesWith m b x = .data (rbField b) x := by
  simp only [decodeBytesWith, h]

/-! ### The whole effects -/

/-- The whole effect of LOAD (R100): both the address and the byte are those of the state before it. -/
theorem exec_load (ra rb : Reg) (s : State) :
    exec (.load ra rb) s = .next ((s.setMar (s.reg ra)).setReg rb (s.memRead (s.reg ra))) := rfl

/-- The whole effect of STORE (R101). -/
theorem exec_store (ra rb : Reg) (s : State) :
    exec (.store ra rb) s = .next ((s.setMar (s.reg ra)).memWrite (s.reg ra) (s.reg rb)) := rfl

/-- The whole effect of DATA (R102). -/
theorem exec_data (rb : Reg) (value : Byte) (s : State) :
    exec (.data rb value) s = .next (((s.setMar s.iar).setIar (s.iar + 1)).setReg rb value) := rfl

/-! ### The statements -/

/-- Settles O14: writing MAR first leaves memory alone, so the reads are those of a plain store. -/
theorem storeWritesTheAddressedByte : Obligations.StoreWritesTheAddressedByte := by
  refine ⟨fun m b x hm => decodeBytesWith_store hm x, fun ra rb s => ⟨_, exec_store ra rb s, ?_, ?_, rfl⟩⟩
  · intro hwf
    have hwf' : Memory.wf (s.setMar (s.reg ra)).mem = true := hwf
    exact State.memRead_memWrite_same hwf' (s.reg ra) (s.reg rb)
  · intro a ha
    calc ((s.setMar (s.reg ra)).memWrite (s.reg ra) (s.reg rb)).memRead a
        = (s.setMar (s.reg ra)).memRead a := State.memRead_memWrite_of_ne ha (s.reg rb)
      _ = s.memRead a := State.setMar_memRead s (s.reg ra) a

/-- Settles O13: the equation of the decoder and the whole effect of LOAD. -/
theorem loadCopiesTheAddressedByte : Obligations.LoadCopiesTheAddressedByte :=
  ⟨fun _ _ x hm => decodeBytesWith_load hm x, exec_load⟩

/-- Settles O15: the equation of the decoder and the whole effect of DATA. -/
theorem dataLoadsTheOperandByte : Obligations.DataLoadsTheOperandByte :=
  ⟨fun _ _ x hm => decodeBytesWith_data hm x, exec_data⟩

end Sys2Proof.Machine
end

section
/-! PROOFS. JMPR, JMP and JCOND (spec/42_jumps.md). For each an equation of the decoder, at any opcode map, and one of
`exec`, the whole effect in terms of the plain updates. JCOND's condition, a nibble that is not 0, is first brought to
the four flags. -/

namespace Sys2Proof.Machine

/-! ### The decoder -/

/-- An opcode byte whose number the map gives to JMPR is of format R (R52, R54). -/
theorem decodeBytesWith_jmpr {m : Nibble → Opcode} {b : Byte} (h : m (opcodeField b) = .jmpr) (x : Byte) :
    decodeBytesWith m b x = .jmpr (rbField b) := by
  simp only [decodeBytesWith, h]

/-- An opcode byte whose number the map gives to JMP is of format A, with the next byte as the address (R52, R56). -/
theorem decodeBytesWith_jmp {m : Nibble → Opcode} {b : Byte} (h : m (opcodeField b) = .jmp) (x : Byte) :
    decodeBytesWith m b x = .jmp x := by
  simp only [decodeBytesWith, h]

/-- An opcode byte whose number the map gives to JCOND is of format CA, with the next byte as the address (R52, R55,
R56). -/
theorem decodeBytesWith_jcond {m : Nibble → Opcode} {b : Byte} (h : m (opcodeField b) = .jcond) (x : Byte) :
    decodeBytesWith m b x = .jcond (maskField b) x := by
  simp only [decodeBytesWith, h]

/-! ### JCOND's condition -/

/-- The bits of a nibble that is put together from four bits, bit 3 first. -/
theorem getLsbD_ofBool_append (c a e z : Bool) :
    let n : Nibble := BitVec.ofBool c ++ BitVec.ofBool a ++ BitVec.ofBool e ++ BitVec.ofBool z
    n.getLsbD 3 = c ∧ n.getLsbD 2 = a ∧ n.getLsbD 1 = e ∧ n.getLsbD 0 = z := by
  revert c a e z
  decide

/-- The flags are the bits of `FL` (R16). -/
theorem State.getLsbD_fl (s : State) :
    s.fl.getLsbD 3 = s.cf ∧ s.fl.getLsbD 2 = s.af ∧ s.fl.getLsbD 1 = s.ef ∧ s.fl.getLsbD 0 = s.zf := by
  rw [State.fl_eq_bits]
  exact getLsbD_ofBool_append s.cf s.af s.ef s.zf

/-- A nibble is not 0 exactly when one of its four bits is set. -/
theorem nibble_bne_zero (n : Nibble) :
    (n != 0) = (n.getLsbD 3 || n.getLsbD 2 || n.getLsbD 1 || n.getLsbD 0) := by
  revert n
  decide

/-- The condition holds exactly when some flag that the mask selects is set (R112). -/
theorem State.jumpTaken_fl (s : State) (mask : Nibble) : jumpTaken mask s.fl = s.anyFlagSet mask := by
  obtain ⟨hcf, haf, hef, hzf⟩ := s.getLsbD_fl
  rw [jumpTaken, nibble_bne_zero]
  simp only [BitVec.getLsbD_and, hcf, haf, hef, hzf, State.anyFlagSet]

/-! ### The whole effects -/

/-- The whole effect of JMPR (R110). -/
theorem exec_jmpr (rb : Reg) (s : State) : exec (.jmpr rb) s = .next (s.setIar (s.reg rb)) := rfl

/-- The whole effect of JMP (R111). -/
theorem exec_jmp (addr : Byte) (s : State) : exec (.jmp addr) s = .next ((s.setMar s.iar).setIar addr) := rfl

/-- The whole effect of JCOND (R112). The condition is of the flags before it, which passing the operand byte keeps;
where it holds, the address overwrites the IAR that was past that byte. -/
theorem exec_jcond (mask : Nibble) (addr : Byte) (s : State) :
    exec (.jcond mask addr) s =
      .next ((s.setMar s.iar).setIar (if s.anyFlagSet mask then addr else s.iar + 1)) := by
  have hcond : jumpTaken mask s.passOperand.fl = s.anyFlagSet mask := s.jumpTaken_fl mask
  rw [exec, execJcond_eq, hcond]
  cases s.anyFlagSet mask with
  | true => rfl
  | false => rfl

/-! ### The statements -/

/-- Settles O20: the equation of the decoder and the whole effect of JCOND. -/
theorem jcondJumpsIfAnySelectedFlagIsSet : Obligations.JcondJumpsIfAnySelectedFlagIsSet :=
  ⟨fun _ _ x hm => decodeBytesWith_jcond hm x, exec_jcond⟩

/-- Settles O18: the equation of the decoder and the whole effect of JMPR. -/
theorem jmprJumpsToRb : Obligations.JmprJumpsToRb :=
  ⟨fun _ _ x hm => decodeBytesWith_jmpr hm x, exec_jmpr⟩

/-- Settles O19: the equation of the decoder and the whole effect of JMP. -/
theorem jmpJumpsToTheOperandByte : Obligations.JmpJumpsToTheOperandByte :=
  ⟨fun _ _ x hm => decodeBytesWith_jmp hm x, exec_jmp⟩

end Sys2Proof.Machine
end

section
/-! PROOFS. CLF (spec/43_clf.md): an equation of the decoder, at any opcode map, and one of `exec`, the whole effect in
terms of the plain updates. -/

namespace Sys2Proof.Machine

/-- An opcode byte whose number the map gives to CLF is of format N; its low nibble and the next byte have no say
(R52, R57). -/
theorem decodeBytesWith_clf {m : Nibble → Opcode} {b : Byte} (h : m (opcodeField b) = .clf) (x : Byte) :
    decodeBytesWith m b x = .clf := by
  simp only [decodeBytesWith, h]

/-- The whole effect of CLF (R120). -/
theorem exec_clf (s : State) :
    exec .clf s = .next ((((s.setCf false).setAf false).setEf false).setZf false) :=
  congrArg Host.Outcome.next s.clearFlags_eq

/-- Settles O23: the equation of the decoder and the whole effect of CLF. -/
theorem clfClearsTheFourFlags : Obligations.ClfClearsTheFourFlags :=
  ⟨fun _ _ x hm => decodeBytesWith_clf hm x, exec_clf⟩

end Sys2Proof.Machine
end

section
/-! PROOFS. The ALU (spec/44_alu.md). One equation of the decoder serves every instruction; each ALU instruction has an
equation of `exec`, in terms of `writeResult` where it writes a result, and each result that the model computes on
unbounded integers is brought to bits or to its value. -/

namespace Sys2Proof.Machine

/-! ### The decoder -/

/-- Only the opcode that the map gives the byte at hand matters to decoding it (R50): the map may be taken to give that
opcode to every number. At an opcode spelt out, the right side computes. -/
theorem decodeBytesWith_of_opcode {m : Nibble → Opcode} {b : Byte} {o : Opcode} (h : m (opcodeField b) = o) (x : Byte) :
    decodeBytesWith m b x = decodeBytesWith (fun _ => o) b x := by
  simp only [decodeBytesWith, h]

/-! ### The whole effects -/

/-- The whole effect of ADD (R126). -/
theorem exec_add (ra rb : Reg) (s : State) :
    exec (.add ra rb) s =
      .next ((s.setCf (addCarryOut Config.addCarryIncludesCin (s.reg ra) (s.reg rb) s.cf)).writeResult rb
        (addResult (s.reg ra) (s.reg rb) s.cf)) := rfl

/-- The whole effect of SHR (R127). -/
theorem exec_shr (ra rb : Reg) (s : State) :
    exec (.shr ra rb) s =
      .next ((s.setCf (shrCarryOut (s.reg ra))).writeResult rb (shrResult (s.reg ra) s.cf)) := rfl

/-- The whole effect of SHL (R128). -/
theorem exec_shl (ra rb : Reg) (s : State) :
    exec (.shl ra rb) s =
      .next ((s.setCf (shlCarryOut (s.reg ra))).writeResult rb (shlResult (s.reg ra) s.cf)) := rfl

/-- The whole effect of NOT (R129). -/
theorem exec_not (ra rb : Reg) (s : State) : exec (.not ra rb) s = .next (s.writeResult rb (~~~ s.reg ra)) := rfl

/-- The whole effect of AND (R130). -/
theorem exec_and (ra rb : Reg) (s : State) :
    exec (.and ra rb) s = .next (s.writeResult rb (s.reg rb &&& s.reg ra)) := rfl

/-- The whole effect of OR (R131). -/
theorem exec_or (ra rb : Reg) (s : State) :
    exec (.or ra rb) s = .next (s.writeResult rb (s.reg rb ||| s.reg ra)) := rfl

/-- The whole effect of XOR (R132). -/
theorem exec_xor (ra rb : Reg) (s : State) :
    exec (.xor ra rb) s = .next (s.writeResult rb (s.reg rb ^^^ s.reg ra)) := rfl

/-- The whole effect of CMP (R133). -/
theorem exec_cmp (ra rb : Reg) (s : State) :
    exec (.cmp ra rb) s =
      .next ((s.setAf (greaterFlag (s.reg ra) (s.reg rb))).setEf (equalFlag (s.reg ra) (s.reg rb))) := rfl

/-! ### Writing a result -/

/-- A result is written to RB and tested into ZF in either order (R125, R136). -/
theorem State.writeResult_eq_setReg (s : State) (rb : Reg) (t : Byte) :
    s.writeResult rb t = (s.setZf (decide (t = 0))).setReg rb t := by
  cases rb <;> rfl

/-- ZF tests the register that the result was written to (R136). -/
theorem State.writeResult_zf_iff (s : State) (rb : Reg) (t : Byte) :
    (s.writeResult rb t).zf = true ↔ (s.writeResult rb t).reg rb = 0 := by
  rw [State.writeResult_eq, State.setZf_zf, State.setZf_reg, State.setReg_reg_same, zeroFlag_iff]

/-- All but CMP write one result to RB, after CF, which the four logical ones leave as it was (R126 to R132). -/
theorem exec_eq_writeResult {ra rb : Reg} {i : Instr} (s : State)
    (hi : i ∈ [.add ra rb, .shr ra rb, .shl ra rb, .not ra rb, .and ra rb, .or ra rb, .xor ra rb]) :
    ∃ c t, exec i s = .next ((s.setCf c).writeResult rb t) ∧
      (i ∈ [.not ra rb, .and ra rb, .or ra rb, .xor ra rb] → c = s.cf) := by
  simp only [List.mem_cons, List.not_mem_nil, or_false] at hi
  rcases hi with rfl | rfl | rfl | rfl | rfl | rfl | rfl
  · exact ⟨_, _, exec_add ra rb s, by simp⟩
  · exact ⟨_, _, exec_shr ra rb s, by simp⟩
  · exact ⟨_, _, exec_shl ra rb s, by simp⟩
  · exact ⟨s.cf, _, exec_not ra rb s, fun _ => rfl⟩
  · exact ⟨s.cf, _, exec_and ra rb s, fun _ => rfl⟩
  · exact ⟨s.cf, _, exec_or ra rb s, fun _ => rfl⟩
  · exact ⟨s.cf, _, exec_xor ra rb s, fun _ => rfl⟩

/-! ### The results and the flags of CMP -/

/-- SHR's result bit by bit: the two halves of the disjunction do not overlap, and together they need no cut (R127). -/
theorem shrResult_eq_cons (a : Byte) (c : Bool) : shrResult a c = BitVec.cons c (a.extractLsb' 1 7) := by
  have hlow : (a.extractLsb' 1 7).toNat = a.toNat >>> 1 := by
    rw [BitVec.extractLsb'_toNat, Nat.shiftRight_eq_div_pow]
    omega
  have hnat : (BitVec.cons c (a.extractLsb' 1 7)).toNat = a.toNat >>> 1 ||| c.toNat <<< 7 := by
    rw [BitVec.toNat_cons, hlow, Nat.or_comm]
  rw [shrResult, ← hnat, BitVec.ofNat_toNat, BitVec.setWidth_eq]

/-- The complement of a byte is its distance from 255 (R129). -/
theorem complement_eq_ofNat (a : Byte) : ~~~a = BitVec.ofNat 8 (255 - a.toNat) := by
  bv_omega

/-- The complement is 0 for 255 alone (R129). -/
theorem complement_eq_zero_iff (a : Byte) : ~~~a = 0 ↔ a.toNat = 255 := by
  bv_omega

/-- No byte is both greater than another and equal to it (R133). -/
theorem not_greaterFlag_and_equalFlag (a b : Byte) : ¬ (greaterFlag a b = true ∧ equalFlag a b = true) := by
  rw [greaterFlag_iff, equalFlag_iff]
  rintro ⟨hgt, rfl⟩
  exact Nat.lt_irrefl _ hgt

/-- CMP leaves both flags clear exactly for the lower byte (R133). -/
theorem greaterFlag_equalFlag_false_iff (a b : Byte) :
    (greaterFlag a b = false ∧ equalFlag a b = false) ↔ a.toNat < b.toNat := by
  rw [← Bool.not_eq_true, ← Bool.not_eq_true, greaterFlag_iff, equalFlag_iff, ← BitVec.toNat_inj]
  omega

/-! ### The statements -/

/-- Settles O27: the whole effect of SHR, with its result bit by bit. -/
theorem shrRotatesRightThroughCarry : Obligations.ShrRotatesRightThroughCarry := by
  refine ⟨fun _ _ x hm => decodeBytesWith_of_opcode hm x, fun ra rb s => ?_⟩
  rw [exec_shr, shrResult_eq_cons, State.writeResult_eq_setReg]
  rfl

/-- Settles O29: the whole effect of NOT, with its result and its zero test as numbers. -/
theorem notComplementsRa : Obligations.NotComplementsRa := by
  refine ⟨fun _ _ x hm => decodeBytesWith_of_opcode hm x, fun ra rb s => ?_⟩
  have hzf : decide (~~~ s.reg ra = 0) = decide ((s.reg ra).toNat = 255) :=
    decide_eq_decide.2 (complement_eq_zero_iff (s.reg ra))
  rw [exec_not, State.writeResult_eq_setReg, hzf, complement_eq_ofNat]
  rfl

/-- Settles O30: the whole effects of AND, OR and XOR. -/
theorem andOrXorCombineBitwise : Obligations.AndOrXorCombineBitwise := by
  refine ⟨fun _ _ x => ⟨fun hm => decodeBytesWith_of_opcode hm x, fun hm => decodeBytesWith_of_opcode hm x,
    fun hm => decodeBytesWith_of_opcode hm x⟩, fun ra rb s => ?_⟩
  rw [exec_and, exec_or, exec_xor]
  simp only [State.writeResult_eq_setReg]
  exact ⟨rfl, rfl, rfl⟩

/-- Settles O31: the whole effect of CMP and the order that its two flags tell. -/
theorem cmpSetsGreaterAndEqual : Obligations.CmpSetsGreaterAndEqual :=
  ⟨fun _ _ x hm => decodeBytesWith_of_opcode hm x, fun ra rb s => ⟨_, exec_cmp ra rb s, rfl,
    not_greaterFlag_and_equalFlag (s.reg ra) (s.reg rb), greaterFlag_equalFlag_false_iff (s.reg ra) (s.reg rb)⟩⟩

/-- Settles O32: the seven write a result by `writeResult`, which sets ZF by it and leaves AF, EF and CF alone. -/
theorem zfReflectsTheValueWritten : Obligations.ZfReflectsTheValueWritten := by
  intro ra rb s i hi
  obtain ⟨c, t, hexec, hcf⟩ := exec_eq_writeResult s hi
  refine ⟨_, hexec, State.writeResult_zf_iff _ rb t, ?_⟩
  simpa [State.writeResult_eq] using hcf

end Sys2Proof.Machine
end

section
/-! PROOFS. PAD (spec/45_pad.md): one equation of `exec`. The decoder's equation for every instruction,
`decodeBytesWith_of_opcode`, serves PAD too. -/

namespace Sys2Proof.Machine

/-- The whole effect of PAD: the state that the fetch left, with no field changed (R150). -/
theorem exec_pad (s : State) : exec .pad s = .next s := rfl

/-- Settles O24: the equation of the decoder at PAD's opcode, and the whole effect of PAD. -/
theorem padDoesNothing : Obligations.PadDoesNothing :=
  ⟨fun _ _ x hm => decodeBytesWith_of_opcode hm x, exec_pad⟩

end Sys2Proof.Machine
end

section
/-! PROOFS. The encoding (spec/30_encoding.md). An instruction's opcode byte decodes to the instruction, and the opcode
byte encoded again is the byte decoded with its don't-care bits cleared. -/

namespace Sys2Proof

/-! ### Decoding an encoded instruction -/

/-- An instruction has an operand byte exactly when its format has one (R51, R52). -/
theorem hasOperandByte_eq_isSome (i : Instr) : i.opcode.format.hasOperandByte = (operandByte? i).isSome := by
  cases i <;> rfl

/-- The two-byte decoder gives back an instruction from its opcode byte, provided that the byte after it is the operand
byte where there is one (R50 to R56). -/
theorem decodeBytesWith_opcodeByteWith {m : Nibble → Opcode} {num : Opcode → Nibble} (hfit : ∀ o, m (num o) = o)
    (i : Instr) {x : Byte} (hx : ∀ y, operandByte? i = some y → x = y) :
    decodeBytesWith m (opcodeByteWith num i) x = i := by
  have hop : m (opcodeField (opcodeByteWith num i)) = i.opcode := by
    rw [opcodeByteWith, opcodeField_byteOf, hfit]
  rw [Machine.decodeBytesWith_of_opcode hop]
  cases i with
  | data rb value => obtain rfl := hx value rfl; simp [decodeBytesWith, opcodeByteWith, Instr.opcode, lowNibble]
  | jmp addr => obtain rfl := hx addr rfl; rfl
  | jcond mask addr => obtain rfl := hx addr rfl; simp [decodeBytesWith, opcodeByteWith, Instr.opcode, lowNibble]
  | clf => rfl
  | pad => rfl
  | _ => simp [decodeBytesWith, opcodeByteWith, Instr.opcode, lowNibble]

/-- Settles O7: the decoder takes as many bytes as the encoder gave, and reads the instruction off them. -/
theorem decodeOfEncodeIsTheInstruction : Obligations.DecodeOfEncodeIsTheInstruction := by
  intro m num hfit i rest
  have hlen : (m (opcodeField (opcodeByteWith num i))).format.hasOperandByte = (operandByte? i).isSome := by
    rw [opcodeByteWith, opcodeField_byteOf, hfit, hasOperandByte_eq_isSome]
  cases hop : operandByte? i with
  | none =>
    have hdec := decodeBytesWith_opcodeByteWith hfit i (x := 0) (by simp [hop])
    rw [hop] at hlen
    calc decodeWith m (encodeWith num i ++ rest)
        = .instr (decodeBytesWith m (opcodeByteWith num i) 0) rest := by
          simpa [encodeWith, hop] using decodeWith_short rest hlen
      _ = .instr i rest := by rw [hdec]
  | some y =>
    have hdec := decodeBytesWith_opcodeByteWith hfit i (x := y) (by simp [hop])
    rw [hop] at hlen
    calc decodeWith m (encodeWith num i ++ rest)
        = .instr (decodeBytesWith m (opcodeByteWith num i) y) rest := by
          simpa [encodeWith, hop] using decodeWith_long y rest hlen
      _ = .instr i rest := by rw [hdec]

/-! ### Encoding a decoded instruction -/

/-- Clearing bits of a byte leaves it as it is exactly when none of them is set. -/
theorem and_not_eq_self_iff (b d : Byte) : b &&& ~~~d = b ↔ b &&& d = 0 := by
  constructor
  · intro h
    rw [← h, BitVec.and_assoc, BitVec.and_comm (~~~d) d, BitVec.and_not_self]
    exact BitVec.and_zero
  · intro h
    calc b &&& ~~~d = (b &&& d) ||| (b &&& ~~~d) := by rw [h]; exact BitVec.zero_or.symm
      _ = b := by ext k hk; cases hd : d[k] <;> simp [hd]

/-- The low nibble of a decoded instruction is that of the byte with the don't-care bits of its format cleared
(R52, R57, D2). -/
theorem byteOf_lowNibble_decodeBytesWith (m : Nibble → Opcode) (b x : Byte) :
    byteOf (opcodeField b) (lowNibble (decodeBytesWith m b x)) = b &&& ~~~(m (opcodeField b)).format.dontCare := by
  have rr : ∀ b : Byte, byteOf (opcodeField b) (nibbleOf (regBits (raField b)) (regBits (rbField b))) =
      b &&& ~~~Format.rr.dontCare := by decide
  have r : ∀ b : Byte, byteOf (opcodeField b) (nibbleOf 0 (regBits (rbField b))) = b &&& ~~~Format.r.dontCare := by
    decide
  have n : ∀ b : Byte, byteOf (opcodeField b) 0 = b &&& ~~~Format.n.dontCare := by decide
  have ca : ∀ b : Byte, byteOf (opcodeField b) (maskField b) = b &&& ~~~Format.ca.dontCare := by decide
  cases ho : m (opcodeField b) <;> rw [Machine.decodeBytesWith_of_opcode ho]
  case data | jmpr => exact r b
  case jmp | clf | pad => exact n b
  case jcond => exact ca b
  all_goals exact rr b

/-- The opcode byte of a decoded instruction is the byte decoded, with its don't-care bits cleared (D2). -/
theorem opcodeByteWith_decodeBytes (b x : Byte) :
    opcodeByteWith opcodeNumber (decodeBytes b x) = b &&& ~~~(decodeBytes b x).opcode.format.dontCare := by
  rw [opcodeByteWith, decodeBytes, opcode_decodeBytesWith, opcodeNumber_opcodeMap, byteOf_lowNibble_decodeBytesWith]

/-- The operand byte of a decoded instruction is the second byte, where its length is 2 (R51). -/
theorem operandByte?_decodeBytes (b x : Byte) :
    operandByte? (decodeBytes b x) = if (decodeBytes b x).length = 2 then some x else none := by
  unfold decodeBytes decodeBytesWith
  split <;> rfl

/-- Settles O8: the encoding begins with the opcode byte cleared of its don't-care bits, and the rest of it is the
operand byte. -/
theorem encodeOfDecodeOnlyForCanonicalBytes : Obligations.EncodeOfDecodeOnlyForCanonicalBytes := by
  intro b x
  have hbytes : encode (decodeBytes b x) = (if (decodeBytes b x).length = 2 then [b, x] else [b]) ↔
      opcodeByteWith opcodeNumber (decodeBytes b x) = b := by
    rw [encode, encodeWith, operandByte?_decodeBytes]
    split <;> simp
  rw [hbytes, opcodeByteWith_decodeBytes, and_not_eq_self_iff, Opcode.canonical, beq_iff_eq]

/-! ### Ranges and words -/

/-- A byte of the sixteen that begin at `16 * n` has the high nibble `n` (R50). -/
theorem opcodeField_eq_of_range {b : Byte} {n : Nibble} (hlo : 16 * n.toNat ≤ b.toNat)
    (hhi : b.toNat ≤ 16 * n.toNat + 15) : opcodeField b = n := by
  apply BitVec.eq_of_toNat_eq
  rw [opcodeField, BitVec.extractLsb'_toNat, Nat.shiftRight_eq_div_pow]
  omega

/-- Settles O5: each row of the table is the range of its opcode's number. -/
theorem opcodeByteRanges : Obligations.OpcodeByteRanges := by
  intro r hr
  have hrow : r.1 = 16 * (opcodeNumber r.2.2).toNat ∧ r.2.1 = 16 * (opcodeNumber r.2.2).toNat + 15 := by
    revert r
    decide
  intro b x hlo hhi
  have hfield : opcodeField b = opcodeNumber r.2.2 := opcodeField_eq_of_range (by omega) (by omega)
  rw [decodeBytes, opcode_decodeBytesWith, hfield, opcodeMap_opcodeNumber]

/-- Settles O4: the decoder computes on words that are written out. -/
theorem decodedWords : Obligations.DecodedWords := by
  unfold Obligations.DecodedWords
  decide

end Sys2Proof
end

section
/-! PROOFS. What an instruction leaves unchanged (41_load_store_data.md, 42_jumps.md, 43_clf.md, 44_alu.md, 45_pad.md).
The next state of each is its whole effect, a chain of plain updates, and each update keeps every other item. -/

namespace Sys2Proof.Machine

/-- Settles O16: LOAD and DATA set MAR and one register, DATA also IAR. -/
theorem loadAndDataChangeOnlyRbMarAndIar : Obligations.LoadAndDataChangeOnlyRbMarAndIar := by
  intro ra rb value s t
  refine ⟨fun h => ?_, fun h => ?_, ?_⟩
  · obtain rfl := Host.Outcome.next.inj ((exec_load ra rb s).symm.trans h)
    simp
  · obtain rfl := Host.Outcome.next.inj ((exec_data rb value s).symm.trans h)
    simp
  · rintro (h | h)
    · obtain rfl := Host.Outcome.next.inj ((exec_load ra rb s).symm.trans h)
      simp +contextual
    · obtain rfl := Host.Outcome.next.inj ((exec_data rb value s).symm.trans h)
      simp +contextual

/-- Settles O17: STORE sets MAR and writes one cell, the one at the effective address. -/
theorem storeChangesOnlyMarAndOneByte : Obligations.StoreChangesOnlyMarAndOneByte := by
  intro ra rb s t h
  obtain rfl := Host.Outcome.next.inj ((exec_store ra rb s).symm.trans h)
  have hmem : ∀ a, a ≠ s.effectiveAddress ra →
      ((s.setMar (s.reg ra)).memWrite (s.reg ra) (s.reg rb)).memRead a = s.memRead a :=
    fun a ha => State.memRead_memWrite_of_ne ha (s.reg rb)
  simpa using hmem

/-- Settles O21: JMPR sets IAR, and JMP and JCOND set MAR and IAR. -/
theorem jumpsChangeOnlyIarAndMar : Obligations.JumpsChangeOnlyIarAndMar := by
  intro rb mask addr s t
  refine ⟨fun h => ?_, ?_, ?_⟩
  · obtain rfl := Host.Outcome.next.inj ((exec_jmpr rb s).symm.trans h)
    simp
  · rintro (h | h)
    · obtain rfl := Host.Outcome.next.inj ((exec_jmp addr s).symm.trans h)
      simp
    · obtain rfl := Host.Outcome.next.inj ((exec_jcond mask addr s).symm.trans h)
      simp
  · rintro (h | h | h)
    · obtain rfl := Host.Outcome.next.inj ((exec_jmpr rb s).symm.trans h)
      simp
    · obtain rfl := Host.Outcome.next.inj ((exec_jmp addr s).symm.trans h)
      simp
    · obtain rfl := Host.Outcome.next.inj ((exec_jcond mask addr s).symm.trans h)
      simp

/-- Settles O25: CLF sets the four flags, and PAD answers the state it began with. -/
theorem clfAndPadChangeAtMostFlags : Obligations.ClfAndPadChangeAtMostFlags := by
  intro s t
  constructor
  · rintro (h | h)
    · obtain rfl := Host.Outcome.next.inj ((exec_clf s).symm.trans h)
      simp
    · obtain rfl := Host.Outcome.next.inj ((exec_pad s).symm.trans h)
      simp
  · intro h
    obtain rfl := Host.Outcome.next.inj ((exec_pad s).symm.trans h)
    simp

/-- Settles O33: CMP sets AF and EF; each of the other seven sets CF, to what it was for the logical ones, and writes a
result to RB and ZF. -/
theorem aluChangesOnlyRbAndItsFlags : Obligations.AluChangesOnlyRbAndItsFlags := by
  intro ra rb s t i hi h
  have hsplit : i ∈ [.add ra rb, .shr ra rb, .shl ra rb, .not ra rb, .and ra rb, .or ra rb, .xor ra rb] ∨
      i = .cmp ra rb := by
    simpa [or_assoc] using hi
  rcases hsplit with hi | rfl
  · obtain ⟨c, v, hexec, hcf⟩ := exec_eq_writeResult s hi
    obtain rfl := Host.Outcome.next.inj (hexec.symm.trans h)
    have hcmp : i ≠ .cmp ra rb := by
      rintro rfl
      simp at hi
    have hkeep : i ∉ [.add ra rb, .shr ra rb, .shl ra rb] → c = s.cf := fun hn => hcf (by simp_all)
    refine ⟨fun r hr => ?_, fun hc => absurd hc hcmp, fun _ => ?_, ?_, ?_⟩
    · simp [State.writeResult_eq, hr]
    · simp [State.writeResult_eq]
    · simpa [State.writeResult_eq] using hkeep
    · simp [State.writeResult_eq]
  · obtain rfl := Host.Outcome.next.inj ((exec_cmp ra rb s).symm.trans h)
    simp

end Sys2Proof.Machine
end

section
/-! PROOFS. The laws of the ALU (spec/44_alu.md): the results and carries of ADD and SHL brought to bits and values, and
the identities between instructions that follow. -/

namespace Sys2Proof.Machine

/-! ### The results and the carries -/

/-- ADD's result as an addition of bytes (R126). -/
theorem addResult_eq_add (a b : Byte) (c : Bool) : addResult a b c = a + b + (if c then 1 else 0) := by
  apply BitVec.eq_of_toNat_eq
  cases c <;> simp [addResult]

/-- The value of SHL's argument with the carry below it: the two do not overlap (R128). -/
theorem shiftLeft_or_carry (a : Byte) (c : Bool) : a.toNat <<< 1 ||| c.toNat = 2 * a.toNat + c.toNat := by
  rw [← Nat.shiftLeft_add_eq_or_of_lt (by simpa using c.toNat_lt), Nat.shiftLeft_eq]
  omega

/-- SHL's result bit by bit: the cut drops bit 7 (R128, N28). -/
theorem shlResult_eq_concat (a : Byte) (c : Bool) : shlResult a c = BitVec.concat (a.extractLsb' 0 7) c := by
  apply BitVec.eq_of_toNat_eq
  rw [shlResult, shiftLeft_or_carry, BitVec.toNat_concat, BitVec.extractLsb'_toNat, BitVec.toNat_ofNat]
  have := c.toNat_lt
  simp only [Nat.shiftRight_zero]
  omega

/-- SHL's result as ADD's: doubling adds the byte to itself (R134). -/
theorem shlResult_eq_addResult (a : Byte) (c : Bool) : shlResult a c = addResult a a c := by
  rw [shlResult, shiftLeft_or_carry, addResult, Nat.two_mul]

/-- Bit 7 is set exactly when the byte doubled exceeds 255 (R128). -/
theorem shlCarryOut_eq_decide (a : Byte) : shlCarryOut a = decide (2 * a.toNat > 255) := by
  calc a.getLsbD 7 = a.msb := (BitVec.msb_eq_getLsbD_last a).symm
    _ = decide (128 ≤ a.toNat) := BitVec.msb_eq_decide a
    _ = decide (2 * a.toNat > 255) := decide_eq_decide.2 (by omega)

/-- The carry-out of the machine's ADD, at the switch's default (R126, D10). -/
theorem addCarryOut_default (a b : Byte) (c : Bool) :
    addCarryOut Config.addCarryIncludesCin a b c = decide (a.toNat + b.toNat > 255) := rfl

/-- The carry-out that counts the carry-in is the ninth bit of the exact sum (R126). -/
theorem toNat_addCarryOut_true (a b : Byte) (c : Bool) :
    (addCarryOut true a b c).toNat = (a.toNat + b.toNat + c.toNat) / 256 := by
  have := c.toNat_lt
  rw [addCarryOut, if_pos rfl]
  by_cases h : a.toNat + b.toNat + c.toNat > 255
  · rw [decide_eq_true h, Bool.toNat_true]
    omega
  · rw [decide_eq_false h, Bool.toNat_false]
    omega

/-! ### The rotates -/

/-- Rotating right and then left gives back the byte (R127, R128). -/
theorem shlResult_shrResult (a : Byte) (c : Bool) : shlResult (shrResult a c) (shrCarryOut a) = a := by
  rw [shlResult_eq_concat, shrResult_eq_cons, shrCarryOut]
  ext k hk
  cases k with
  | zero => simp
  | succ k =>
    have hbit : a.getLsbD (k + 1) = a[k + 1] := BitVec.getLsbD_eq_getElem hk
    simpa [Nat.add_comm 1 k] using hbit

/-- Rotating right and then left gives back the carry. -/
theorem shlCarryOut_shrResult (a : Byte) (c : Bool) : shlCarryOut (shrResult a c) = c := by
  rw [shrResult_eq_cons, shlCarryOut, BitVec.getLsbD_cons]
  exact if_pos rfl

/-- Rotating left and then right gives back the byte. -/
theorem shrResult_shlResult (a : Byte) (c : Bool) : shrResult (shlResult a c) (shlCarryOut a) = a := by
  rw [shlResult_eq_concat, shrResult_eq_cons, shlCarryOut]
  ext k hk
  rw [BitVec.getElem_cons]
  split
  · subst k
    rfl
  · have hlt : k < 7 := by omega
    simp [Nat.add_comm 1 k, hlt, BitVec.getLsbD_eq_getElem hk]

/-- Rotating left and then right gives back the carry. -/
theorem shrCarryOut_shlResult (a : Byte) (c : Bool) : shrCarryOut (shlResult a c) = c := by
  rw [shlResult_eq_concat, shrCarryOut, BitVec.getLsbD_concat]
  exact if_pos rfl

/-! ### The statements -/

/-- Settles O26: the whole effect of ADD, with its result as an addition of bytes. -/
theorem addAddsWithCarryIn : Obligations.AddAddsWithCarryIn := by
  refine ⟨fun _ _ x hm => decodeBytesWith_of_opcode hm x, fun ra rb s => ?_⟩
  rw [exec_add, addResult_eq_add, addCarryOut_default, State.writeResult_eq_setReg]
  rfl

/-- Settles O28: the whole effect of SHL, with its result bit by bit and its carry as a comparison. -/
theorem shlRotatesLeftThroughCarry : Obligations.ShlRotatesLeftThroughCarry := by
  refine ⟨fun _ _ x hm => decodeBytesWith_of_opcode hm x, fun ra rb s => ?_⟩
  rw [exec_shl, shlResult_eq_concat, shlCarryOut_eq_decide, State.writeResult_eq_setReg]
  rfl

/-- Settles O34: the carry that counts the carry-in is the quotient of the sum by 256 and the result its remainder. -/
theorem addCarryReadingsDifferInOneCase : Obligations.AddCarryReadingsDifferInOneCase := by
  intro a b c
  have hresult : (addResult a b c).toNat = (a.toNat + b.toNat + c.toNat) % 256 := BitVec.toNat_ofNat _ 8
  constructor
  · rw [hresult, toNat_addCarryOut_true]
    exact Nat.div_add_mod _ _
  · have hdiff : addCarryOut true a b c ≠ addCarryOut false a b c ↔
        ¬ (a.toNat + b.toNat + c.toNat > 255 ↔ a.toNat + b.toNat > 255) := by
      simp [addCarryOut]
    rw [hdiff]
    cases c with
    | false => simp
    | true =>
      simp only [Bool.toNat_true, and_true]
      omega

/-- Settles O35: the results agree, and bit 7 of a byte is the carry of its sum with itself. -/
theorem shlSelfIsAddSelf : Obligations.ShlSelfIsAddSelf := by
  intro r s
  rw [exec_shl, exec_add, shlResult_eq_addResult, shlCarryOut_eq_decide, addCarryOut_default, Nat.two_mul]

/-- Settles O36: the second rotate acts on the value and the carry that the first left. -/
theorem shiftsThroughCarryUndoEachOther : Obligations.ShiftsThroughCarryUndoEachOther := by
  intro ra rb s
  refine ⟨⟨_, _, exec_shr ra rb s, exec_shl rb rb _, ?_⟩, ⟨_, _, exec_shl ra rb s, exec_shr rb rb _, ?_⟩⟩
  · simp [State.writeResult_eq, shlResult_shrResult, shlCarryOut_shrResult]
  · simp [State.writeResult_eq, shrResult_shlResult, shrCarryOut_shlResult]

/-- Settles O37: the bitwise identities, with ZF the zero test of the result written. -/
theorem logicIdentities : Obligations.LogicIdentities := by
  intro r s
  refine ⟨⟨_, _, exec_not r r s, exec_not r r _, ?_⟩, ⟨_, exec_xor r r s, ?_⟩, fun i hi => ?_⟩
  · simp [State.writeResult_eq]
  · simp [State.writeResult_eq]
  · simp only [List.mem_cons, List.not_mem_nil, or_false] at hi
    rcases hi with rfl | rfl
    · exact ⟨_, exec_and r r s, by simp [State.writeResult_eq]⟩
    · exact ⟨_, exec_or r r s, by simp [State.writeResult_eq]⟩

/-- The flags that the masks of JA, JE and JAE select, after CMP has set AF and EF (R112, R133). -/
theorem State.anyFlagSet_of_compare (s : State) (af ef : Bool) :
    ((s.setAf af).setEf ef).anyFlagSet 0b0100 = af ∧ ((s.setAf af).setEf ef).anyFlagSet 0b0010 = ef ∧
      ((s.setAf af).setEf ef).anyFlagSet 0b0110 = (af || ef) := by
  simp [State.anyFlagSet]

/-- AF after CMP is the strict unsigned order (R114, R133). -/
theorem greaterFlag_iff_lt (a b : Byte) : greaterFlag a b = true ↔ b < a := greaterFlag_iff a b

/-- AF or EF after CMP is the unsigned order (R114, R133). -/
theorem greaterFlag_or_equalFlag_iff_le (a b : Byte) : (greaterFlag a b || equalFlag a b) = true ↔ b ≤ a := by
  rw [Bool.or_eq_true, greaterFlag_iff, equalFlag_iff]
  bv_omega

/-- Settles O22: the masks select AF and EF, which CMP set by the unsigned order. -/
theorem compareThenJumpTestsUnsignedOrder : Obligations.CompareThenJumpTestsUnsignedOrder := by
  intro ra rb addr s
  obtain ⟨hja, hje, hjae⟩ :=
    s.anyFlagSet_of_compare (greaterFlag (s.reg ra) (s.reg rb)) (equalFlag (s.reg ra) (s.reg rb))
  refine ⟨_, exec_cmp ra rb s, ?_, ?_, ?_⟩
  · rw [exec_jcond, hja]
    simp only [greaterFlag_iff_lt]
    rfl
  · rw [exec_jcond, hje]
    simp only [equalFlag_iff]
    rfl
  · rw [exec_jcond, hjae]
    simp only [greaterFlag_or_equalFlag_iff_le]
    rfl

end Sys2Proof.Machine
end

section
/-! PROOFS. What a step can do, said once: `State.stepped` is the state that a step leaves, by the opcode it runs, as
plain updates of the state before it, and `step_eq_stepped` ties it to `step`. The tables of spec/10_state.md and the
rules over every step are read off it, item by item. -/

namespace Sys2Proof.Machine

/-! ### The state that a step leaves -/

/-- The state after the fetch of R91 and the meaning of an opcode, whose operands are the fields of the byte at IAR and
the byte after it. -/
def State.stepped (s : State) (o : Opcode) : State :=
  let a := s.reg s.nextRa
  let b := s.reg s.nextRb
  match o with
  | .load => (s.fetch.setMar a).setReg s.nextRb (s.memRead a)
  | .store => (s.fetch.setMar a).memWrite a b
  | .data => ((s.fetch.setMar (s.iar + 1)).setReg s.nextRb (s.memRead (s.iar + 1))).setIar (s.iar + 1 + 1)
  | .jmpr => s.fetch.setIar b
  | .jmp => (s.fetch.setMar (s.iar + 1)).setIar (s.memRead (s.iar + 1))
  | .jcond =>
    (s.fetch.setMar (s.iar + 1)).setIar
      (if s.anyFlagSet s.nextMask then s.memRead (s.iar + 1) else s.iar + 1 + 1)
  | .clf => s.fetch.clearFlags
  | .pad => s.fetch
  | .add => (s.fetch.setCf (addCarryOut Config.addCarryIncludesCin a b s.cf)).writeResult s.nextRb (addResult a b s.cf)
  | .shr => (s.fetch.setCf (shrCarryOut a)).writeResult s.nextRb (shrResult a s.cf)
  | .shl => (s.fetch.setCf (shlCarryOut a)).writeResult s.nextRb (shlResult a s.cf)
  | .not => s.fetch.writeResult s.nextRb (~~~a)
  | .and => s.fetch.writeResult s.nextRb (b &&& a)
  | .or => s.fetch.writeResult s.nextRb (b ||| a)
  | .xor => s.fetch.writeResult s.nextRb (b ^^^ a)
  | .cmp => (s.fetch.setAf (greaterFlag a b)).setEf (equalFlag a b)

/-- A general register and IAR may be written in either order. -/
theorem State.setReg_setIar_comm (s : State) (r : Reg) (v w : Byte) :
    (s.setIar w).setReg r v = (s.setReg r v).setIar w := by
  cases r <;> rfl

/-- Every step goes to the state of `State.stepped`, for the opcode of the byte at IAR (R90 to R92). JCOND's condition is
on `FL`, and DATA passes its operand byte before it writes RB; the other meanings compute to the updates. -/
theorem step_eq_stepped (s : State) : step s = .next (s.stepped s.nextOpcode) := by
  have hexec : ∀ o, s.nextOpcode = o →
      step s = exec (decodeBytesWith (fun _ => o) s.nextOpcodeByte s.nextOperandByte) s.fetch :=
    fun o ho => congrArg (exec · s.fetch) (decodeBytesWith_of_opcode ho s.nextOperandByte)
  cases ho : s.nextOpcode <;> rw [hexec _ ho]
  case data => exact congrArg _ (State.setReg_setIar_comm _ _ _ _)
  case jcond => exact exec_jcond s.nextMask s.nextOperandByte s.fetch
  all_goals rfl

/-- The one state that a step can answer. -/
theorem eq_stepped_of_step {s t : State} (h : step s = .next t) : t = s.stepped s.nextOpcode :=
  Host.Outcome.next.inj (h.symm.trans (step_eq_stepped s))

/-! ### Its items -/

section
variable (s : State) (o : Opcode)

@[simp] theorem State.fetch_reg (r : Reg) : s.fetch.reg r = s.reg r := by
  cases r <;> rfl

@[simp] theorem State.fetch_mem : s.fetch.mem = s.mem := rfl

@[simp] theorem State.fetch_memRead (a : Byte) : s.fetch.memRead a = s.memRead a := rfl

/-- The general registers after an opcode: RB alone may be written, and by nine opcodes only (R11). -/
theorem State.stepped_reg_other {r : Reg}
    (h : ¬ (r = s.nextRb ∧ o ∈ [.load, .data, .add, .shr, .shl, .not, .and, .or, .xor])) :
    (s.stepped o).reg r = s.reg r := by
  by_cases hr : r = s.nextRb
  · have ho : o ∉ [.load, .data, .add, .shr, .shl, .not, .and, .or, .xor] := fun ho => h ⟨hr, ho⟩
    cases o
    case store | jmpr | jmp | jcond | clf | pad | cmp => simp [State.stepped, State.clearFlags_eq]
    all_goals exact absurd (by decide) ho
  · cases o <;> simp [State.stepped, State.writeResult_eq, State.clearFlags_eq, hr]

/-- IAR after an opcode (R12). -/
theorem State.stepped_iar :
    (s.stepped o).iar =
      if o = .data then s.iar + 2
      else if o = .jmpr then s.reg s.nextRb
      else if o = .jmp then s.memRead (s.iar + 1)
      else if o = .jcond then (if s.anyFlagSet s.nextMask then s.memRead (s.iar + 1) else s.iar + 2)
      else s.iar + 1 := by
  have htwo : s.iar + 1#8 + 1#8 = s.iar + 2#8 := BitVec.add_assoc s.iar 1 1
  cases o <;> simp [State.stepped, State.fetch_eq, State.writeResult_eq, State.clearFlags_eq, htwo]

/-- IR after any opcode (R14). -/
theorem State.stepped_ir : (s.stepped o).ir = s.memRead s.iar := by
  cases o <;>
    simp [State.stepped, State.fetch_eq, State.nextOpcodeByte, State.writeResult_eq, State.clearFlags_eq]

/-- MAR after an opcode (R13). -/
theorem State.stepped_mar :
    (s.stepped o).mar =
      if o = .load ∨ o = .store then s.reg s.nextRa
      else if o = .data ∨ o = .jmp ∨ o = .jcond then s.iar + 1
      else s.iar := by
  cases o <;> simp [State.stepped, State.fetch_eq, State.writeResult_eq, State.clearFlags_eq]

/-- CF after an opcode (R15). -/
theorem State.stepped_cf :
    (s.stepped o).cf =
      if o = .add then decide ((s.reg s.nextRa).toNat + (s.reg s.nextRb).toNat > 255)
      else if o = .shr then (s.reg s.nextRa).getLsbD 0
      else if o = .shl then (s.reg s.nextRa).getLsbD 7
      else if o = .clf then false else s.cf := by
  cases o <;>
    simp [State.stepped, State.fetch_eq, State.writeResult_eq, State.clearFlags_eq, addCarryOut_default, shrCarryOut,
      shlCarryOut]

/-- AF after an opcode (R15). -/
theorem State.stepped_af :
    (s.stepped o).af =
      if o = .cmp then greaterFlag (s.reg s.nextRa) (s.reg s.nextRb) else if o = .clf then false else s.af := by
  cases o <;> simp [State.stepped, State.fetch_eq, State.writeResult_eq, State.clearFlags_eq]

/-- EF after an opcode (R15). -/
theorem State.stepped_ef :
    (s.stepped o).ef =
      if o = .cmp then equalFlag (s.reg s.nextRa) (s.reg s.nextRb) else if o = .clf then false else s.ef := by
  cases o <;> simp [State.stepped, State.fetch_eq, State.writeResult_eq, State.clearFlags_eq]

/-- ZF after an opcode, as a test of the register that it wrote (R15, R136). -/
theorem State.stepped_zf :
    (s.stepped o).zf =
      if o ∈ [.add, .shr, .shl, .not, .and, .or, .xor] then decide ((s.stepped o).reg s.nextRb = 0)
      else if o = .clf then false else s.zf := by
  cases o <;> simp [State.stepped, State.fetch_eq, State.writeResult_eq_setReg, State.clearFlags_eq]

/-- Memory after an opcode: STORE writes one cell of it (R33). -/
theorem State.stepped_mem :
    (s.stepped o).mem =
      if o = .store then Memory.write s.mem (s.reg s.nextRa) (s.reg s.nextRb) else s.mem := by
  cases o <;> simp [State.stepped, State.writeResult_eq, State.clearFlags_eq]

end

/-! ### The tables -/

/-- Settles O38: the flags of the state that the step leaves. -/
theorem flagsAfterAStep : Obligations.FlagsAfterAStep := by
  intro s t h
  obtain rfl := eq_stepped_of_step h
  exact ⟨s.stepped_cf _, s.stepped_af _, s.stepped_ef _, s.stepped_zf _⟩

/-- Settles O39: the IAR of the state that the step leaves. -/
theorem iarAfterAStep : Obligations.IarAfterAStep := by
  intro s t h
  obtain rfl := eq_stepped_of_step h
  exact s.stepped_iar s.nextOpcode

/-- Settles O40: the IR and the MAR of the state that the step leaves. -/
theorem marAndIrAfterAStep : Obligations.MarAndIrAfterAStep := by
  intro s t h
  obtain rfl := eq_stepped_of_step h
  exact ⟨s.stepped_ir s.nextOpcode, s.stepped_mar s.nextOpcode⟩

/-- Settles O41: a register that is not RB, or not of the nine opcodes, is kept. -/
theorem onlyRbIsWrittenByAStep : Obligations.OnlyRbIsWrittenByAStep := by
  intro s t h r hne
  obtain rfl := eq_stepped_of_step h
  by_contra hother
  exact hne (s.stepped_reg_other s.nextOpcode hother)

/-- Settles O42: the memory that the step leaves, with the two laws of reading after a write. -/
theorem onlyStoreWritesMemory : Obligations.OnlyStoreWritesMemory := by
  intro s t hwf h a
  obtain rfl := eq_stepped_of_step h
  have hread : ∀ u : State, u.memRead a = Memory.read u.mem a := fun _ => rfl
  rw [hread, s.stepped_mem]
  by_cases ho : s.nextOpcode = .store
  · rw [if_pos ho]
    by_cases ha : a = s.reg s.nextRa
    · rw [if_pos ⟨ho, ha⟩, ha]
      exact State.memRead_memWrite_same hwf _ _
    · rw [if_neg (fun hc => ha hc.2)]
      exact State.memRead_memWrite_of_ne ha _
  · rw [if_neg ho, if_neg (fun hc => ho hc.1)]
    rfl

/-- Settles O3: each arm of the block is the state that the step leaves for its opcode. The block counts the carry by a
choice of 1 or 0 and joins the flags bit by bit; these two are brought to the model's first. -/
theorem stepAgreesWithOneBlockPseudocode : Obligations.StepAgreesWithOneBlockPseudocode := by
  intro s
  rw [step_eq_stepped]
  unfold stepBlock
  extract_lets s1 s2 fetched ra rb mask a b c sLoad sOperand sData sPassed fl
  have hc : c = s.cf.toNat := by
    change (if s.cf then 1 else 0) = s.cf.toNat
    cases s.cf <;> rfl
  have hfl : fl = s.fl := s.fl_eq_bits.symm
  clear_value c fl
  subst hc hfl
  split <;> rename_i ho <;> rw [show s.nextOpcode = _ from ho]
  case h_3 => -- DATA: the block advances the IAR that it reads back after the write of RB.
    have hiar : sData.iar = s.iar + 1 := State.setReg_iar sOperand rb _
    change _ = Host.Outcome.next (sData.setIar (sData.iar + 1))
    rw [hiar]
    rfl
  case h_6 => -- JCOND: the block tests the nibble, the state after the step the flags one by one.
    have hcond : mask &&& s.fl ≠ 0 ↔ s.anyFlagSet s.nextMask = true := by
      rw [← s.jumpTaken_fl, jumpTaken, bne_iff_ne]
      rfl
    rw [State.stepped]
    by_cases htaken : mask &&& s.fl ≠ 0
    · rw [if_pos htaken, if_pos (hcond.1 htaken)]
      rfl
    · rw [if_neg htaken, if_neg (mt hcond.2 htaken)]
      rfl
  all_goals rfl

/-! ### The invariant -/

/-- The check as a statement about the two flags. -/
theorem State.compareFlagsExclusive_iff (s : State) :
    s.compareFlagsExclusive = true ↔ ¬ (s.af = true ∧ s.ef = true) := by
  rw [State.compareFlagsExclusive, Bool.not_eq_true', ← Bool.not_eq_true, Bool.and_eq_true]

/-- No opcode leaves AF and EF both 1 that did not find them so: CMP compares, and every other keeps or clears both
(R133). -/
theorem State.stepped_compareFlagsExclusive (s : State) (o : Opcode) (h : s.compareFlagsExclusive = true) :
    (s.stepped o).compareFlagsExclusive = true := by
  rw [State.compareFlagsExclusive_iff] at h ⊢
  rw [State.stepped_af, State.stepped_ef]
  by_cases hcmp : o = .cmp
  · rw [if_pos hcmp, if_pos hcmp]
    exact not_greaterFlag_and_equalFlag (s.reg s.nextRa) (s.reg s.nextRb)
  · rw [if_neg hcmp, if_neg hcmp]
    by_cases hclf : o = .clf
    · simp [hclf]
    · rwa [if_neg hclf, if_neg hclf]

/-- Every opcode keeps memory in canonical form, since a write does (R31). -/
theorem State.stepped_inv (s : State) (o : Opcode) (h : s.inv = true) : (s.stepped o).inv = true := by
  rw [State.inv, State.stepped_mem]
  split
  · exact Memory.wf_write h _ _
  · exact h

/-- Settles O44: both parts hold of the state that the step leaves. -/
theorem stepKeepsTheInvariant : Obligations.StepKeepsTheInvariant := by
  intro s t h
  obtain rfl := eq_stepped_of_step h
  exact ⟨s.stepped_inv s.nextOpcode, s.stepped_compareFlagsExclusive s.nextOpcode⟩

/-! ### Fetches -/

/-- Settles O11: IAR, IR and memory after a STORE, by the tables. -/
theorem storeIsSeenByTheNextFetch : Obligations.StoreIsSeenByTheNextFetch := by
  intro s t hwf ho h
  obtain ⟨hir, -⟩ := marAndIrAfterAStep s t h
  have hiar : t.iar = s.iar + 1 := by
    simpa [ho] using iarAfterAStep s t h
  have hmem : ∀ a, t.memRead a = if a = s.reg s.nextRa then s.reg s.nextRb else s.memRead a := by
    simpa [ho] using onlyStoreWritesMemory s t hwf h
  have hne : s.iar + 1 ≠ s.iar := by bv_omega
  refine ⟨hir, fun hra => ?_, fun hra => ?_⟩
  · rw [State.nextOpcodeByte, hiar, hmem, if_pos hra.symm]
  · rw [State.nextOpcodeByte, hiar, hmem, hmem, hra]
    exact ⟨if_pos rfl, if_neg hne⟩

/-- The opcodes of length 1 are those that are none of the three with an operand byte (R51). -/
theorem length_eq_one_iff (o : Opcode) : o.length = 1 ↔ o ≠ .data ∧ o ≠ .jmp ∧ o ≠ .jcond := by
  cases o <;> decide

/-- Settles O12: IAR after the step, by its table, with the addresses computed modulo 256. -/
theorem instructionAtTheTopOfMemoryWraps : Obligations.InstructionAtTheTopOfMemoryWraps := by
  intro s t htop h
  have hiar := iarAfterAStep s t h
  have hzero : (255 : Byte) + 1 = 0 := rfl
  have hone : (255 : Byte) + 2 = 1 := rfl
  rw [htop, hzero, hone] at hiar
  refine ⟨fun ho => ⟨?_, ?_⟩, fun ho => ?_, fun ho => ?_, fun hlen hjmpr => ?_⟩
  · rw [eq_stepped_of_step h, ho, State.stepped, State.setIar_reg, State.setReg_reg_same, htop, hzero]
  · simpa [ho] using hiar
  · simpa [ho] using hiar
  · simpa [ho] using hiar
  · obtain ⟨hdata, hjmp, hjcond⟩ := (length_eq_one_iff s.nextOpcode).1 hlen
    simpa [hdata, hjmpr, hjmp, hjcond] using hiar

/-- Settles O43: the fetch overwrites both, and the instruction is read off IAR and memory. -/
theorem marAndIrAreNotObservable : Obligations.MarAndIrAreNotObservable := by
  intro s x y
  have hfetch : State.fetch { s with mar := x, ir := y } = s.fetch := rfl
  have hnext : State.nextInstr { s with mar := x, ir := y } = s.nextInstr := rfl
  rw [step, hfetch, hnext, step]

/-! ### Fixed points -/

/-- A jump sets MAR, IR and IAR only (R113). -/
theorem State.stepped_jump (s : State) {o : Opcode} (ho : o ∈ [.jmpr, .jmp, .jcond]) :
    s.stepped o = { s with mar := (s.stepped o).mar, ir := s.memRead s.iar, iar := (s.stepped o).iar } := by
  simp only [List.mem_cons, List.not_mem_nil, or_false] at ho
  rcases ho with rfl | rfl | rfl
  · rfl
  · rfl
  · rfl

/-- The state after a jump to its own address differs from the state before it in MAR and IR only. -/
theorem step_of_self_target {s : State} {m : Byte} (ho : s.nextOpcode ∈ [.jmpr, .jmp, .jcond])
    (hiar : (s.stepped s.nextOpcode).iar = s.iar) (hmar : (s.stepped s.nextOpcode).mar = m) :
    step s = .next { s with mar := m, ir := s.memRead s.iar } := by
  have hjump := s.stepped_jump ho
  rw [hiar, hmar] at hjump
  rw [step_eq_stepped, hjump]

/-- A state that already holds the MAR and the IR of a jump to its own address is a fixed point (R96). -/
theorem fixedPoint_of_self_target {s : State} (hir : s.ir = s.memRead s.iar)
    (ho : s.nextOpcode ∈ [.jmpr, .jmp, .jcond]) (hiar : (s.stepped s.nextOpcode).iar = s.iar)
    (hmar : (s.stepped s.nextOpcode).mar = s.mar) : fixedPoint s := by
  rw [fixedPoint, step_of_self_target ho hiar hmar, ← hir]

/-- Settles O45: a fixed point agrees with the state after its step in IAR, MAR and IR, which the tables give. -/
theorem fixedPointsAreSelfJumps : Obligations.FixedPointsAreSelfJumps := by
  intro s
  constructor
  · intro h
    obtain ⟨hir, hmar⟩ := marAndIrAfterAStep s s h
    have hiar := iarAfterAStep s s h
    refine ⟨hir, ?_⟩
    -- The opcodes that are no jump move IAR on, so their table entry contradicts `hiar`.
    cases ho : s.nextOpcode <;> simp [ho] at hiar hmar
    case jmpr => exact .inr (.inl ⟨rfl, hiar.symm, hmar⟩)
    case jmp => exact .inl ⟨rfl, hiar.symm, hmar⟩
    case jcond =>
      have hne : s.iar ≠ s.iar + 2 := by bv_omega
      by_cases htaken : s.anyFlagSet s.nextMask = true
      · rw [if_pos htaken] at hiar
        exact .inr (.inr ⟨rfl, htaken, hiar.symm, hmar⟩)
      · rw [if_neg htaken] at hiar
        exact absurd hiar hne
  · rintro ⟨hir, ⟨ho, htarget, hmar⟩ | ⟨ho, htarget, hmar⟩ | ⟨ho, htaken, htarget, hmar⟩⟩
    · exact fixedPoint_of_self_target hir (by simp [ho]) (by simpa [State.stepped_iar, ho] using htarget)
        (by simp [State.stepped_mar, ho, hmar])
    · exact fixedPoint_of_self_target hir (by simp [ho]) (by simpa [State.stepped_iar, ho] using htarget)
        (by simp [State.stepped_mar, ho, hmar])
    · exact fixedPoint_of_self_target hir (by simp [ho]) (by simpa [State.stepped_iar, ho, htaken] using htarget)
        (by simp [State.stepped_mar, ho, hmar])

/-- Settles O46: a step does not see the MAR and the IR that it leaves, so it answers them again. -/
theorem selfJumpReachesAFixedPoint : Obligations.SelfJumpReachesAFixedPoint := by
  intro s ho htarget
  have hstep : step s = .next { s with mar := s.iar + 1, ir := s.memRead s.iar } :=
    step_of_self_target (by simp [ho]) (by simpa [State.stepped_iar, ho] using htarget)
      (by simp [State.stepped_mar, ho])
  exact ⟨(marAndIrAreNotObservable s _ _).trans hstep, hstep⟩

end Sys2Proof.Machine
end

section
/-! PROOFS. Canonical memory and the host (spec/20_memory.md, spec/70_reset_and_hazards.md). `load` is followed cell by
cell; what the host's other actions do is read off their definitions and the lemmas of the step. -/

namespace Sys2Proof.Machine

/-! ### Canonical memory -/

/-- Settles O10: the cells below 256 are those that a byte addresses, and no other is listed. -/
theorem canonicalMemoriesReadingAlikeAreEqual : Obligations.CanonicalMemoriesReadingAlikeAreEqual := by
  intro m m' h h' hread
  refine Memory.wfFrom_ext h h' (fun a => ?_)
  by_cases ha : a < Config.memorySize
  · have hcell := hread (BitVec.ofNat 8 a)
    rwa [Memory.read, Memory.read, BitVec.toNat_ofNat, Nat.mod_eq_of_lt ha] at hcell
  · rw [Memory.lookup_outside h (Nat.not_lt.1 ha), Memory.lookup_outside h' (Nat.not_lt.1 ha)]

/-! ### Loading a program -/

/-- Copying bytes changes nothing but memory (R182). -/
theorem State.copyFrom_eq (s : State) (at0 : Byte) (bytes : List Byte) :
    s.copyFrom at0 bytes = { s with mem := (s.copyFrom at0 bytes).mem } := by
  induction bytes generalizing s at0 with
  | nil => rfl
  | cons v rest ih => exact ih (s.memWrite at0 v) (at0 + 1)

/-- Copying bytes keeps memory in canonical form. -/
theorem State.copyFrom_wf {s : State} (h : Memory.wf s.mem = true) (at0 : Byte) (bytes : List Byte) :
    Memory.wf (s.copyFrom at0 bytes).mem = true := by
  induction bytes generalizing s at0 with
  | nil => exact h
  | cons v rest ih => exact ih (State.wf_memWrite h at0 v) (at0 + 1)

/-- Where the bytes copied from cell `k` up do not wrap, each cell from `k` up holds its byte, if there is one, and every
other cell what it held. -/
theorem State.copyFrom_memRead {s : State} (h : Memory.wf s.mem = true) (k : Nat) (bytes : List Byte)
    (hfit : k + bytes.length ≤ 256) (a : Byte) :
    (s.copyFrom (BitVec.ofNat 8 k) bytes).memRead a =
      if k ≤ a.toNat then (bytes[a.toNat - k]?).getD (s.memRead a) else s.memRead a := by
  induction bytes generalizing s k with
  | nil => simp [State.copyFrom]
  | cons v rest ih =>
    rw [List.length_cons] at hfit
    have hnext : BitVec.ofNat 8 k + 1 = BitVec.ofNat 8 (k + 1) := (BitVec.ofNat_add k 1).symm
    rw [State.copyFrom, hnext, ih (State.wf_memWrite h _ v) (k + 1) (by omega)]
    by_cases ha : a = BitVec.ofNat 8 k
    · have hk : a.toNat = k := by rw [ha, BitVec.toNat_ofNat, Nat.mod_eq_of_lt (by omega)]
      rw [if_neg (by omega), if_pos (by omega), hk, Nat.sub_self, ha, State.memRead_memWrite_same h]
      rfl
    · have hk : a.toNat ≠ k := by
        rintro rfl
        exact ha (by rw [BitVec.ofNat_toNat, BitVec.setWidth_eq])
      rw [State.memRead_memWrite_of_ne ha]
      by_cases hle : k ≤ a.toNat
      · rw [if_pos (by omega), if_pos hle, show a.toNat - k = a.toNat - (k + 1) + 1 by omega, List.getElem?_cons_succ]
      · rw [if_neg (by omega), if_neg hle]

/-- A load changes nothing but memory (R182). -/
theorem State.load_eq (s : State) (program : List Byte) :
    s.load program = { s with mem := (s.load program).mem } :=
  s.copyFrom_eq 0 _

/-- A load keeps memory in canonical form. -/
theorem State.load_wf {s : State} (h : Memory.wf s.mem = true) (program : List Byte) :
    Memory.wf (s.load program).mem = true :=
  State.copyFrom_wf h 0 _

/-- Every cell after a load holds its byte of the program, if there is one, and else what it held (R182, D6). -/
theorem State.load_memRead {s : State} (h : Memory.wf s.mem = true) (program : List Byte) (a : Byte) :
    (s.load program).memRead a = (program[a.toNat]?).getD (s.memRead a) := by
  have hfit : 0 + (program.take Config.memorySize).length ≤ 256 := by simp
  have hread := State.copyFrom_memRead h 0 (program.take Config.memorySize) hfit a
  rw [if_pos (Nat.zero_le _), Nat.sub_zero, List.getElem?_take_of_lt a.isLt] at hread
  exact hread

/-- Settles O50: a load changes memory alone, cell by cell. -/
theorem loadCopiesTheProgram : Obligations.LoadCopiesTheProgram :=
  fun s program h => ⟨s.load program, rfl, s.load_eq program, State.load_memRead h program⟩

/-- A load leaves IAR where it was. -/
theorem State.load_iar (s : State) (program : List Byte) : (s.load program).iar = s.iar := by
  rw [s.load_eq program]

/-- A host that lets the machine run one step finds the state that the step leaves, with the byte at IAR in IR. -/
theorem hostRun_step (s : State) :
    ∃ t : State, step s = .next t ∧ hostRun s [.step] = .next t ∧ t.ir = s.memRead s.iar := by
  refine ⟨_, step_eq_stepped s, ?_, s.stepped_ir s.nextOpcode⟩
  rw [hostRun, hostAct, step_eq_stepped]
  rfl

/-- The step after a load is the step of the same registers and flags over the loaded memory, and its IR is the loaded
byte at their IAR (R23, R182). -/
theorem State.load_then_step {s : State} (h : Memory.wf s.mem = true) (program : List Byte) :
    ∃ (m : Memory) (t : State), Memory.wf m = true ∧
      (∀ a : Byte, Memory.read m a = (program[a.toNat]?).getD (s.memRead a)) ∧
      hostRun s [.load program, .step] = .next t ∧ step { s with mem := m } = .next t ∧
      t.ir = (program[s.iar.toNat]?).getD (s.memRead s.iar) := by
  obtain ⟨t, hstep, hrun, hir⟩ := hostRun_step (s.load program)
  refine ⟨(s.load program).mem, t, State.load_wf h program, State.load_memRead h program, hrun, ?_, ?_⟩
  · rwa [← s.load_eq program]
  · rw [hir, State.load_iar, State.load_memRead h]

/-- Settles O51: the register file of the machine that is loaded is any. -/
theorem loadWithoutResetRunsFromArbitraryRegisters : Obligations.LoadWithoutResetRunsFromArbitraryRegisters :=
  fun r0 r1 r2 r3 iar mar ir cf af ef zf mem program h =>
    State.load_then_step (s := ⟨r0, r1, r2, r3, iar, mar, ir, cf, af, ef, zf, mem⟩) h program

/-- Settles O52: in both orders the step begins with IAR 0 and the image loaded from cell 0 up. -/
theorem bootRunsByteZeroFirst : Obligations.BootRunsByteZeroFirst := by
  intro s b image h
  constructor
  · obtain ⟨t, -, hrun, hir⟩ := hostRun_step (State.reset.load (b :: image))
    refine ⟨t, hrun, ?_⟩
    rw [hir, State.load_iar, State.load_memRead rfl]
    rfl
  · obtain ⟨t, -, hrun, hir⟩ := hostRun_step (s.load (b :: image)).resetRegisters
    have hread : (s.load (b :: image)).memRead 0 = b := by
      rw [State.load_memRead h]
      rfl
    exact ⟨t, hrun, hir.trans hread⟩

/-! ### Resets -/

/-- Settles O47: the reset state, item by item. -/
theorem resetIsAllZero : Obligations.ResetIsAllZero := by
  intro s
  refine ⟨State.reset, rfl, ?_, rfl, rfl, rfl, rfl, rfl, rfl, rfl, fun a => rfl⟩
  intro r
  cases r <;> rfl

/-- Settles O49: the reset state's register file over the memory of before. -/
theorem resetRegistersKeepsMemory : Obligations.ResetRegistersKeepsMemory := by
  intro s
  refine ⟨s.resetRegisters, rfl, ?_, rfl, rfl, rfl, rfl, rfl, rfl, rfl, fun a => rfl⟩
  intro r
  cases r <;> rfl

/-- Settles O48: an empty list of cells is canonical, and both flags are 0. -/
theorem invariantHoldsAtReset : Obligations.InvariantHoldsAtReset := ⟨rfl, rfl⟩

/-! ### Sequences of host actions -/

/-- Every host action goes on to a next state that keeps the invariant and, apart from it, that AF and EF are not both
1 (R180 to R184). -/
theorem hostAct_keeps (s : State) (act : HostAction) :
    ∃ t : State, hostAct s act = .next t ∧ (s.inv = true → t.inv = true) ∧
      (s.compareFlagsExclusive = true → t.compareFlagsExclusive = true) := by
  cases act with
  | reset => exact ⟨State.reset, rfl, fun _ => rfl, fun _ => rfl⟩
  | resetRegisters => exact ⟨s.resetRegisters, rfl, id, fun _ => rfl⟩
  | load program =>
    refine ⟨s.load program, rfl, fun h => State.load_wf h program, fun h => ?_⟩
    rw [s.load_eq program]
    exact h
  | step => exact ⟨_, step_eq_stepped s, s.stepped_inv s.nextOpcode, s.stepped_compareFlagsExclusive s.nextOpcode⟩
  | inspect => exact ⟨s, rfl, id, id⟩

/-- Every sequence of host actions does what a single one does. -/
theorem hostRun_keeps (s : State) (acts : List HostAction) :
    ∃ t : State, hostRun s acts = .next t ∧ (s.inv = true → t.inv = true) ∧
      (s.compareFlagsExclusive = true → t.compareFlagsExclusive = true) := by
  induction acts generalizing s with
  | nil => exact ⟨s, rfl, id, id⟩
  | cons act rest ih =>
    obtain ⟨u, hact, hinv, hflags⟩ := hostAct_keeps s act
    obtain ⟨t, hrun, hinv', hflags'⟩ := ih u
    refine ⟨t, ?_, hinv' ∘ hinv, hflags' ∘ hflags⟩
    rw [hostRun, hact]
    exact hrun

/-- Settles O53: a sequence answers a next state, which keeps both. -/
theorem everyHostSequenceStaysSafe : Obligations.EveryHostSequenceStaysSafe := by
  intro acts s
  obtain ⟨t, hrun, hinv, hflags⟩ := hostRun_keeps s acts
  refine ⟨fun h => ?_, t, hrun, hflags⟩
  rw [hrun]
  exact hinv h

end Sys2Proof.Machine
end

section
/-! PROOFS. The assembler's statements (spec/30_encoding.md section 7): the letters of a conditional jump and the
operand order. -/

namespace Sys2Proof.Asm

/-! ### The letters of a conditional jump -/

/-- A letter's bit is set in its mask and no other bit is (R74). -/
theorem letterMask_getLsbD {c : Char} {b : Nibble} (h : letterMask c = some b) :
    (b.getLsbD 3 = true ↔ 'C' = c) ∧ (b.getLsbD 2 = true ↔ 'A' = c) ∧
      (b.getLsbD 1 = true ↔ 'E' = c) ∧ (b.getLsbD 0 = true ↔ 'Z' = c) := by
  unfold letterMask at h
  split at h <;> cases h <;> decide

/-- A character has no mask exactly when it is none of the four letters (R74). -/
theorem letterMask_eq_none_iff (c : Char) : letterMask c = none ↔ c ∉ ['C', 'A', 'E', 'Z'] := by
  unfold letterMask
  split <;> simp_all

/-- The mask of a sequence is the first letter's bit with the mask of the rest. -/
theorem lettersMask_cons_eq_some {c : Char} {cs : Text} {mask : Nibble} :
    lettersMask (c :: cs) = some mask ↔
      ∃ b m, letterMask c = some b ∧ lettersMask cs = some m ∧ mask = b ||| m := by
  rw [lettersMask]
  cases letterMask c <;> cases lettersMask cs <;> simp [eq_comm]

/-- A sequence has no mask exactly when its first letter has none or the rest has none. -/
theorem lettersMask_cons_eq_none {c : Char} {cs : Text} :
    lettersMask (c :: cs) = none ↔ letterMask c = none ∨ lettersMask cs = none := by
  rw [lettersMask]
  cases letterMask c <;> cases lettersMask cs <;> simp

/-- The bits of a sequence's mask are those of its letters (R74). -/
theorem lettersMask_getLsbD {letters : Text} {mask : Nibble} (h : lettersMask letters = some mask) :
    (mask.getLsbD 3 = true ↔ 'C' ∈ letters) ∧ (mask.getLsbD 2 = true ↔ 'A' ∈ letters) ∧
      (mask.getLsbD 1 = true ↔ 'E' ∈ letters) ∧ (mask.getLsbD 0 = true ↔ 'Z' ∈ letters) := by
  induction letters generalizing mask with
  | nil =>
    cases h
    decide
  | cons c cs ih =>
    obtain ⟨b, m, hb, hm, rfl⟩ := lettersMask_cons_eq_some.1 h
    obtain ⟨hC, hA, hE, hZ⟩ := letterMask_getLsbD hb
    obtain ⟨hC', hA', hE', hZ'⟩ := ih hm
    simp only [BitVec.getLsbD_or, Bool.or_eq_true, List.mem_cons, hC, hA, hE, hZ, hC', hA', hE', hZ', and_self]

/-- A sequence has no mask exactly when it holds some other character (R74). -/
theorem lettersMask_eq_none_iff (letters : Text) :
    lettersMask letters = none ↔ ∃ c ∈ letters, c ∉ ['C', 'A', 'E', 'Z'] := by
  induction letters with
  | nil => simp [lettersMask]
  | cons c cs ih => rw [lettersMask_cons_eq_none, letterMask_eq_none_iff, ih, List.exists_mem_cons_iff]

/-- Settles O54: the bits of the mask where there is one, and when there is none. -/
theorem jumpLettersSetMaskBits : Obligations.JumpLettersSetMaskBits :=
  ⟨fun _ _ h => lettersMask_getLsbD h, lettersMask_eq_none_iff⟩

/-! ### Two register operands -/

/-- The name of a register is read as that register, whether or not the case of letters counts (R72, N17). -/
theorem parseRegister_registerText (p : AsmParams) (line col : Nat) (r : Reg) :
    parseRegister p ⟨line, col, registerText r⟩ = .ok r := by
  have hkey : registerKey p (registerText r) = registerText r := by
    unfold registerKey
    split
    · rfl
    · cases r <;> decide
  unfold parseRegister
  rw [hkey]
  cases r <;> rfl

/-- A statement of two register names has the first as `RA` and the second as `RB` (R71, D11). -/
theorem parseRaRb_registerText (p : AsmParams) (w : Word) (make : Reg → Reg → Instr) (line ka kb : Nat) (ra rb : Reg) :
    parseRaRb p w make [⟨line, ka, registerText ra⟩, ⟨line, kb, registerText rb⟩] = .ok (.code (make ra rb) none) := by
  rw [parseRaRb, parseRegister_registerText, parseRegister_registerText]
  rfl

/-- Settles O55: each of the ten mnemonics reads its operands by `parseRaRb`. -/
theorem twoRegisterStatementsNameRaFirst : Obligations.TwoRegisterStatementsNameRaFirst := by
  intro p line k ka kb ra rb c hc
  have hparse : ∃ make : Reg → Reg → Instr, c.2 = make ra rb ∧
      ∀ ops, parseInstr p ⟨line, k, c.1⟩ ops = parseRaRb p ⟨line, k, c.1⟩ make ops := by
    simp only [List.mem_cons, List.not_mem_nil, or_false] at hc
    rcases hc with rfl | rfl | rfl | rfl | rfl | rfl | rfl | rfl | rfl | rfl
    · exact ⟨.load, rfl, fun _ => rfl⟩
    · exact ⟨.store, rfl, fun _ => rfl⟩
    · exact ⟨.add, rfl, fun _ => rfl⟩
    · exact ⟨.shr, rfl, fun _ => rfl⟩
    · exact ⟨.shl, rfl, fun _ => rfl⟩
    · exact ⟨.not, rfl, fun _ => rfl⟩
    · exact ⟨.and, rfl, fun _ => rfl⟩
    · exact ⟨.or, rfl, fun _ => rfl⟩
    · exact ⟨.xor, rfl, fun _ => rfl⟩
    · exact ⟨.cmp, rfl, fun _ => rfl⟩
  obtain ⟨make, hinstr, hmake⟩ := hparse
  rw [hmake, hinstr]
  exact parseRaRb_registerText p _ make line ka kb ra rb

end Sys2Proof.Asm
end

section
/-! PROOFS. Resolution and the ceiling (spec/30_encoding.md sections 8 and 9). One inversion lemma says what the
emission pass does with a line; the bound on its output and the labels it collects follow by induction over the lines. -/

namespace Sys2Proof.Asm

/-! ### Resolution -/

/-- Resolution fails at a reference whose label has no definition (R77). -/
theorem resolve_cons_none {p : AsmParams} {defs : List LabelDef} {r : PatchRequest}
    (h : findDef p defs r.name = none) (rest : List PatchRequest) (bytes : List Byte) :
    resolve p defs (r :: rest) bytes = .error (.undefinedLabel r.line r.name) := by
  simp only [resolve, h]

/-- Resolution succeeds exactly when every referenced label is defined (R77). -/
theorem exists_resolve_iff {p : AsmParams} {defs : List LabelDef} {refs : List PatchRequest} {bytes : List Byte} :
    (∃ out, resolve p defs refs bytes = .ok out) ↔ ∀ r ∈ refs, (findDef p defs r.name).isSome := by
  induction refs generalizing bytes with
  | nil => simp [resolve]
  | cons r rest ih =>
    cases hd : findDef p defs r.name with
    | none => simp [resolve_cons_none hd, hd]
    | some d => simp [resolve_cons hd, hd, ih]

/-- Resolution leaves every byte alone that no reference patches (R77). -/
theorem resolve_getElem?_other {p : AsmParams} {defs : List LabelDef} {refs : List PatchRequest}
    {bytes out : List Byte} {k : Nat} (h : resolve p defs refs bytes = .ok out) (hk : ∀ r ∈ refs, r.offset ≠ k) :
    out[k]? = bytes[k]? := by
  induction refs generalizing bytes with
  | nil => cases h; rfl
  | cons r rest ih =>
    obtain ⟨hr, hrest⟩ := List.forall_mem_cons.1 hk
    cases hd : findDef p defs r.name with
    | none => simp [resolve_cons_none hd] at h
    | some d =>
      rw [resolve_cons hd] at h
      rw [ih h hrest, List.getElem?_set_ne hr]

/-- Resolution leaves at each reference its label's value: a later reference has another place (R77). -/
theorem resolve_getElem?_ref {p : AsmParams} {defs : List LabelDef} {refs : List PatchRequest}
    {bytes out : List Byte} (hdistinct : (refs.map (·.offset)).Nodup) (hin : ∀ r ∈ refs, r.offset < bytes.length)
    (h : resolve p defs refs bytes = .ok out) {r : PatchRequest} (hr : r ∈ refs) {d : LabelDef}
    (hd : findDef p defs r.name = some d) : out[r.offset]? = some (labelByte p d) := by
  induction refs generalizing bytes with
  | nil => cases hr
  | cons q rest ih =>
    obtain ⟨hq, hdistinct⟩ := List.nodup_cons.1 hdistinct
    obtain ⟨hqin, hin⟩ := List.forall_mem_cons.1 hin
    cases hqd : findDef p defs q.name with
    | none => simp [resolve_cons_none hqd] at h
    | some e =>
      rw [resolve_cons hqd] at h
      rcases List.mem_cons.1 hr with rfl | hr
      · obtain rfl : d = e := Option.some.inj (hd.symm.trans hqd)
        have hother : ∀ s ∈ rest, s.offset ≠ r.offset := fun s hs he => hq (List.mem_map.2 ⟨s, hs, he⟩)
        rw [resolve_getElem?_other h hother, List.getElem?_set_self hqin]
      · exact ih hdistinct (by simpa using hin) h hr

/-- Settles O58: when resolution succeeds, and what it does to a byte at a reference and to any other. -/
theorem resolutionPatchesEveryReference : Obligations.ResolutionPatchesEveryReference :=
  fun _ _ _ _ hdistinct hin => ⟨exists_resolve_iff, fun _ h =>
    ⟨fun _ hr _ hd => resolve_getElem?_ref hdistinct hin h hr hd, fun _ hk => resolve_getElem?_other h hk⟩⟩

/-! ### The emission pass -/

/-- What a successful emission does with a line: it skips it, collects its label, cuts there, or emits its instruction
(R75, R76, R79). -/
theorem emitLines_cons {p : AsmParams} {text : Text} {rest : List Text} {line : Nat} {e e' : Emitted}
    (h : emitLines p (text :: rest) line e = .ok e') :
    (lineLabel p line text = none ∧ emitLines p rest (line + 1) e = .ok e') ∨
    (∃ name, lineLabel p line text = some name ∧
      emitLines p rest (line + 1) { e with defs := e.defs ++ [⟨name, e.bytes.length, line⟩] } = .ok e') ∨
    (∃ i, lineLabel p line text = none ∧ e.bytes.length + i.length > Config.memorySize ∧
      e' = e.truncate p line i (lateLabels p rest (line + 1))) ∨
    (∃ i ref, lineLabel p line text = none ∧ e.bytes.length + i.length ≤ Config.memorySize ∧
      emitLines p rest (line + 1) (e.emit line i ref) = .ok e') := by
  have hlabel : ∀ st, parseLine p line text = .ok st → (∀ name, st ≠ some (.labelDef name)) →
      lineLabel p line text = none := by
    intro st hst hne
    rw [Option.eq_none_iff_forall_ne_some]
    intro name hname
    exact hne name (Except.ok.inj (hst.symm.trans (parseLine_labelDef.2 hname)))
  rw [emitLines] at h
  split at h
  · cases h
  · rename_i hline
    exact .inl ⟨hlabel _ hline (by simp), h⟩
  · rename_i name hline
    split at h
    · cases h
    · exact .inr (.inl ⟨name, parseLine_labelDef.1 hline, h⟩)
  · rename_i i ref hline
    split at h
    · rename_i hlen
      exact .inr (.inr (.inl ⟨i, hlabel _ hline (by simp), hlen, (Except.ok.inj h).symm⟩))
    · rename_i hlen
      exact .inr (.inr (.inr ⟨i, ref, hlabel _ hline (by simp), Nat.not_lt.1 hlen, h⟩))

/-- An encoding has as many bytes as its instruction's length (R51). -/
theorem length_encode (i : Instr) : (encode i).length = i.length := by
  cases i <;> rfl

/-- An instruction has at most two bytes (R51). -/
theorem length_le_two (i : Instr) : i.length ≤ 2 := by
  unfold Instr.length Opcode.length
  split <;> decide

/-- The cut comes at 255 or 256 bytes and leaves exactly 256 (R79). -/
theorem Emitted.length_truncate {p : AsmParams} {e : Emitted} {line : Nat} {i : Instr} {late : List LabelDef}
    (hfit : e.bytes.length ≤ Config.memorySize) (hover : e.bytes.length + i.length > Config.memorySize) :
    (e.truncate p line i late).bytes.length = Config.memorySize := by
  have hlen := length_le_two i
  change (if e.bytes.length < Config.memorySize then _ else e.bytes).length = Config.memorySize
  split
  · rw [List.length_append, List.length_singleton]
    omega
  · omega

/-- The emission stays within the ceiling, and warns of a cut only when it has reached it (R79). -/
theorem emitLines_length {p : AsmParams} {source : List Text} {line : Nat} {e e' : Emitted}
    (h : emitLines p source line e = .ok e') (hfit : e.bytes.length ≤ Config.memorySize) (hwarn : e.warnings = []) :
    e'.bytes.length ≤ Config.memorySize ∧ (e'.warnings ≠ [] → e'.bytes.length = Config.memorySize) := by
  induction source generalizing line e with
  | nil =>
    cases h
    exact ⟨hfit, fun hne => absurd hwarn hne⟩
  | cons text rest ih =>
    rcases emitLines_cons h with ⟨-, h⟩ | ⟨name, -, h⟩ | ⟨i, -, hover, rfl⟩ | ⟨i, ref, -, hlen, h⟩
    · exact ih h hfit hwarn
    · exact ih h hfit hwarn
    · have hcut := Emitted.length_truncate (p := p) (line := line) (late := lateLabels p rest (line + 1)) hfit hover
      exact ⟨hcut.le, fun _ => hcut⟩
    · exact ih h (by simpa [Emitted.emit, length_encode] using hlen) hwarn

/-- The labels that the emission has collected at its end, before and after the cut, are those it began with and those
that the lines define (R75, R79). -/
theorem emitLines_labels {p : AsmParams} {source : List Text} {line : Nat} {e e' : Emitted}
    (h : emitLines p source line e = .ok e') (hlate : e.lateDefs = []) :
    (e'.defs ++ e'.lateDefs).map (·.name) = e.defs.map (·.name) ++ (lateLabels p source line).map (·.name) := by
  induction source generalizing line e with
  | nil =>
    cases h
    simp [hlate, lateLabels]
  | cons text rest ih =>
    rcases emitLines_cons h with ⟨hnone, h⟩ | ⟨name, hname, h⟩ | ⟨i, hnone, -, rfl⟩ | ⟨i, ref, hnone, -, h⟩
    · simpa [lateLabels, hnone] using ih h hlate
    · simpa [lateLabels, hname] using ih h hlate
    · simp [lateLabels, hnone, Emitted.truncate]
    · simpa [lateLabels, hnone, Emitted.emit] using ih h hlate

/-- A name is defined among the labels of a source exactly when some line defines the same name (R77). -/
theorem findDef_emitLines_isSome_iff {p : AsmParams} {source : List Text} {e : Emitted}
    (h : emitLines p source 1 .start = .ok e) (name : Text) :
    (findDef p (e.defs ++ e.lateDefs) name).isSome ↔ ∃ (k : Nat) (text name' : Text),
      source[k]? = some text ∧ lineLabel p (k + 1) text = some name' ∧ nameKey p name' = nameKey p name := by
  have hlabels : (e.defs ++ e.lateDefs).map (·.name) = (lateLabels p source 1).map (·.name) := by
    simpa [Emitted.start] using emitLines_labels h rfl
  calc (findDef p (e.defs ++ e.lateDefs) name).isSome
      ↔ ∃ d ∈ e.defs ++ e.lateDefs, nameKey p d.name = nameKey p name := findDef_isSome
    _ ↔ ∃ name' ∈ (e.defs ++ e.lateDefs).map (·.name), nameKey p name' = nameKey p name := by
      simp only [List.mem_map, exists_exists_and_eq_and]
    _ ↔ ∃ d ∈ lateLabels p source 1, nameKey p d.name = nameKey p name := by
      simp only [hlabels, List.mem_map, exists_exists_and_eq_and]
    _ ↔ _ := by
      simp only [mem_lateLabels, Nat.add_comm 1]
      constructor
      · rintro ⟨d, ⟨-, k, text, hk, -, hname⟩, hkey⟩
        exact ⟨k, text, d.name, hk, hname, hkey⟩
      · rintro ⟨k, text, name', hk, hname, hkey⟩
        exact ⟨⟨name', Config.memorySize, k + 1⟩, ⟨rfl, k, text, hk, rfl, hname⟩, hkey⟩

/-! ### The compile -/

/-- A compile succeeds exactly when the emission and then the resolution do, with the emission's warnings first (R80). -/
theorem assemble_eq_ok_iff {p : AsmParams} {source : List Text} {out : AsmOutput} :
    assemble p source = .ok out ↔ ∃ e image, emitLines p source 1 .start = .ok e ∧
      resolve p (e.defs ++ e.lateDefs) e.refs e.bytes = .ok image ∧ out = ⟨image, e.warnings ++ unusedWarnings p e⟩ := by
  unfold assemble
  cases he : emitLines p source 1 .start with
  | error err => simp
  | ok e =>
    cases hr : resolve p (e.defs ++ e.lateDefs) e.refs e.bytes with
    | error err => simp [hr]
    | ok image => simp [hr, eq_comm]

/-- Only the emission warns of a cut (R78, R79). -/
theorem truncated_mem_warnings_iff {p : AsmParams} {e : Emitted} {line : Nat} :
    .truncated line ∈ e.warnings ++ unusedWarnings p e ↔ .truncated line ∈ e.warnings := by
  simp [unusedWarnings]

/-- Settles O56: the resolution keeps the length of the emission. -/
theorem assembledImageFitsMemory : Obligations.AssembledImageFitsMemory := by
  intro p source out h
  obtain ⟨e, image, he, hr, rfl⟩ := assemble_eq_ok_iff.1 h
  obtain ⟨hfit, hcut⟩ := emitLines_length he (Nat.zero_le _) rfl
  have hlen : image.length = e.bytes.length := resolve_length hr
  constructor
  · rw [imageWf, hlen]
    exact decide_eq_true hfit
  · rintro ⟨line, hline⟩
    rw [truncated_mem_warnings_iff] at hline
    exact hlen.trans (hcut (List.ne_nil_of_mem hline))

/-- Settles O57: after the emission the compile succeeds exactly when the resolution does, whose definitions are those of
all lines. -/
theorem sourceAtTheCeilingIsCutNotRefused : Obligations.SourceAtTheCeilingIsCutNotRefused := by
  rintro p source e he ⟨line, hline⟩
  constructor
  · calc (∃ out, assemble p source = .ok out)
        ↔ ∃ image, resolve p (e.defs ++ e.lateDefs) e.refs e.bytes = .ok image := by
          simp [assemble_eq_ok_iff, he]
      _ ↔ ∀ r ∈ e.refs, (findDef p (e.defs ++ e.lateDefs) r.name).isSome := exists_resolve_iff
      _ ↔ _ := forall₂_congr fun r _ => findDef_emitLines_isSome_iff he r.name
  · intro out h
    obtain ⟨e', image, he', hr, rfl⟩ := assemble_eq_ok_iff.1 h
    obtain rfl : e = e' := Except.ok.inj (he.symm.trans he')
    have hwarn : .truncated line ∈ e.warnings ++ unusedWarnings p e := truncated_mem_warnings_iff.2 hline
    exact ⟨(assembledImageFitsMemory p source _ h).2 ⟨line, hwarn⟩, line, hwarn⟩

end Sys2Proof.Asm
end
